-- ==== Sys2Proof/Word.lean ====
section
/-! DEFINITION. The types of CORE's data: the Word and the key byte (00_scope.md section 5), the command word
(30_encoding.md R54), the three storage arrays' shapes (10_state.md R13; 20_memory.md R34) and the Block
(00_scope.md glossary). No operation stands here. -/

namespace Sys2Proof

/-- The source's Word: an unsigned integer of 32 bits (`u32`). -/
abbrev Word := BitVec 32

/-- A key byte (`u8`). -/
abbrev Byte := BitVec 8

/-- R54: a command word, `{cmd_op[1:0], cmd_data[127:0]}`. -/
abbrev CmdWord := BitVec 130

/-- R16: the Expanded Key Table `S[0..25]`. -/
abbrev Table := Vector Word 26

/-- R19: the key words `L[0..3]`. -/
abbrev KeyWords := Vector Word 4

/-- R19: the Secret Key `K[0..15]`. -/
abbrev Key := Vector Byte 16

/-- A round of the block transform, R102 and R108: the element `r` stands for round `i = r + 1`, so that `i` is in 1..12. -/
abbrev Round := Fin 12

/-- A Block: a pair of words. `w0` is the word the source indexes `[0]` (the `A` side), `w1` is `[1]` (the `B` side), R59. -/
structure Block where
  w0 : Word
  w1 : Word
deriving DecidableEq, Repr

end Sys2Proof
end

