-- ==== Sys2Proof/Config.lean ====
section
/-! DEFINITION. What an implementation of CORE fixes: the build-time parameters and magic constants (00_scope.md R5,
R6, R7), which are constants and not state, and the free values, which the spec leaves open (10_state.md R32,
30_encoding.md R62). A free value has no body: nothing can prove what it is. -/

namespace Sys2Proof.Config

/-- R5: bits in a Word. -/
def wordSize : Nat := 32

/-- R5: bytes in the Secret Key. -/
def keyBytes : Nat := 16

/-- R5, R7: words the key is packed into. -/
def keyWords : Nat := keyBytes / (wordSize / 8)

/-- R5: rounds of the block transform. -/
def rounds : Nat := 12

/-- R5, R7: words in the Expanded Key Table. -/
def expandedKeySize : Nat := 2 * (rounds + 1)

/-- R5, R7: iterations of the mixing pass. -/
def mixIterations : Nat := 3 * expandedKeySize

/-- R5: words in a Block. -/
def blockWords : Nat := 2

/-- R5, R93: the fixed left-rotation amount of the mixing pass's first statement. -/
def aRot : Word := 3#32

/-- R6: the magic constant `P`. -/
def magicP : Word := 0xB7E15163#32

/-- R6: the magic constant `Q`. -/
def magicQ : Word := 0x9E3779B9#32

/-! ## Free values: what the registers of R32 marked "unspecified" hold after the n-th reset event

Each is a draw per reset ("any value, possibly different after each reset", R32; 93 U1). Log entry 2. -/

/-- R32: `S` after the n-th reset event. -/
opaque resetTable : Nat → Table

/-- R32: `L` after the n-th reset event. -/
opaque resetKeyWords : Nat → KeyWords

/-- R32: `K` after the n-th reset event. -/
opaque resetKey : Nat → Key

/-- R32: `A` after the n-th reset event. -/
opaque resetA : Nat → Word

/-- R32: `B` after the n-th reset event. -/
opaque resetB : Nat → Word

/-- R32: `s` after the n-th reset event. -/
opaque resetS : Nat → Fin 26

/-- R32: `l` after the n-th reset event. -/
opaque resetL : Nat → Fin 4

/-- R32: `cnt` after the n-th reset event. -/
opaque resetCnt : Nat → BitVec 7

/-- R62: what `rsp_data` reads as in the n-th response, where that response carries no data (93 U3). Log entry 6. -/
opaque rspFill : Nat → BitVec 64

end Sys2Proof.Config
end

