-- ==== Sys2Proof/Syntax.lean ====
section
/-! DEFINITION. The commands of CORE as syntax: one constructor per row of spec/opcode_table.json (30_encoding.md
R57). Operands are the fields of formats K and B (R55, R56), the ignored bits among them: the core must behave
identically for every value of them (R64), and that is a statement about meanings, so the syntax keeps them. -/

namespace Sys2Proof

/-- A command of the core, R57. -/
inductive Instr where
  /-- `op = 00`, R63: the reserved opcode; `ignored` is all of `cmd_data`. -/
  | reserved (ignored : BitVec 128)
  /-- `op = 01`, R55: load the 16-byte key and expand it. -/
  | expand (key : Key)
  /-- `op = 10`, R56: encrypt the block `[w0, w1]`; `ignored` is `cmd_data[127:64]`. -/
  | encrypt (ignored : BitVec 64) (w1 w0 : Word)
  /-- `op = 11`, R56: decrypt the block `[w0, w1]`; `ignored` is `cmd_data[127:64]`. -/
  | decrypt (ignored : BitVec 64) (w1 w0 : Word)
deriving DecidableEq, Repr

end Sys2Proof
end

