-- ==== Sys2Proof/WellFormed.lean ====
section
/-! DEFINITION. What a well-formed command is. The hardware has nothing to refuse: every one of the 2^130 command
words has a defined meaning (30_encoding.md R64), and every field of Instr has exactly its operand's width. The checks
that exist stand at the host's side of the port, where a key is still a list of bytes or a string: it must be exactly
16 bytes (41_key_schedule.md R95, 70_reset_and_hazards.md R153), and a string must be ASCII (30_encoding.md R68). -/

namespace Sys2Proof

/-- R64: every command of the syntax is well-formed; there is no illegal operand and no illegal encoding. -/
def Instr.wellFormed : Instr → Bool
  | .reserved _ => true
  | .expand _ => true
  | .encrypt _ _ _ => true
  | .decrypt _ _ _ => true

/-- R95, R153: a host's key must be exactly 16 bytes before it reaches the core. -/
def keyBytesWellFormed (bytes : List Byte) : Bool :=
  bytes.length == 16

/-- R68: `EXPAND "cccccccccccccccc"` takes a string of 16 ASCII characters. -/
def keyTextWellFormed (chars : List Char) : Bool :=
  chars.length == 16 && chars.all (fun c => c.toNat < 128)

end Sys2Proof
end

