-- ==== Sys2Proof/Decode.lean ====
section
/-! DEFINITION. Reading a command from its 130-bit word and writing it back (30_encoding.md R54 to R59). Decoding is
total on command words: with a 2-bit opcode every word has a meaning (R64). What is no command word at all (a number
of more than 130 bits) is refused by name. -/

namespace Sys2Proof

/-! ## Fields -/

/-- R54: `cmd_op`, the bits 129:128 of the command word. -/
def cmdOp (w : CmdWord) : BitVec 2 := w.extractLsb' 128 2

/-- R54: `cmd_data`, the bits 127:0 of the command word. -/
def cmdData (w : CmdWord) : BitVec 128 := w.extractLsb' 0 128

/-- R54: the command word `{op, data}`. -/
def cmdWord (op : BitVec 2) (data : BitVec 128) : CmdWord := op ++ data

/-- R55, R58: key byte `i` is `cmd_data[8*i+7 : 8*i]`. -/
def keyByte (data : BitVec 128) (i : Nat) : Byte := data.extractLsb' (8 * i) 8

/-- R58: the sixteen key bytes of an operand of format K, key byte 0 first. -/
def keyOfData (data : BitVec 128) : Key :=
  #v[keyByte data 0, keyByte data 1, keyByte data 2, keyByte data 3,
     keyByte data 4, keyByte data 5, keyByte data 6, keyByte data 7,
     keyByte data 8, keyByte data 9, keyByte data 10, keyByte data 11,
     keyByte data 12, keyByte data 13, keyByte data 14, keyByte data 15]

/-- R55: the operand of format K, key byte 15 in the highest bits and key byte 0 in the lowest. -/
def dataOfKey (k : Key) : BitVec 128 :=
  k[15] ++ k[14] ++ k[13] ++ k[12] ++ k[11] ++ k[10] ++ k[9] ++ k[8] ++
  k[7] ++ k[6] ++ k[5] ++ k[4] ++ k[3] ++ k[2] ++ k[1] ++ k[0]

/-- R56, R59: block word 0 is `cmd_data[31:0]`. -/
def blockWord0 (data : BitVec 128) : Word := data.extractLsb' 0 32

/-- R56, R59: block word 1 is `cmd_data[63:32]`. -/
def blockWord1 (data : BitVec 128) : Word := data.extractLsb' 32 32

/-- R56: the ignored bits of format B, `cmd_data[127:64]`. -/
def blockIgnored (data : BitVec 128) : BitVec 64 := data.extractLsb' 64 64

/-- R56: the operand of format B. -/
def dataOfBlock (ignored : BitVec 64) (w1 w0 : Word) : BitVec 128 := ignored ++ w1 ++ w0

/-! ## The decoder and the encoder -/

/-- R57: the command an opcode and its operand name. -/
def decodeParts (op : BitVec 2) (data : BitVec 128) : Instr :=
  if op = 0b00#2 then .reserved data
  else if op = 0b01#2 then .expand (keyOfData data)
  else if op = 0b10#2 then .encrypt (blockIgnored data) (blockWord1 data) (blockWord0 data)
  else .decrypt (blockIgnored data) (blockWord1 data) (blockWord0 data)

/-- R54, R57, R64: the command a word names; total. -/
def decode (w : CmdWord) : Instr := decodeParts (cmdOp w) (cmdData w)

/-- R57: the opcode of a command. -/
def opcodeOf : Instr → BitVec 2
  | .reserved _ => 0b00#2
  | .expand _ => 0b01#2
  | .encrypt _ _ _ => 0b10#2
  | .decrypt _ _ _ => 0b11#2

/-- R55, R56, R63: the operand bits of a command. -/
def operandOf : Instr → BitVec 128
  | .reserved ignored => ignored
  | .expand key => dataOfKey key
  | .encrypt ignored w1 w0 => dataOfBlock ignored w1 w0
  | .decrypt ignored w1 w0 => dataOfBlock ignored w1 w0

/-- R54 to R57: the word of a command. -/
def encode (i : Instr) : CmdWord := cmdWord (opcodeOf i) (operandOf i)

/-! ## Numbers that are no command word -/

/-- Why a number is refused by the decoder. -/
inductive DecodeError where
  /-- R54: a command is one word of 130 bits, so a number of more bits is none. Safe: the port cannot carry it. -/
  | notACommandWord
deriving DecidableEq, Repr

/-- R54, R65: a number read as a command; it must fit the one length there is, 130 bits. -/
def decodeNat (w : Nat) : Except DecodeError Instr :=
  if w < 2 ^ 130 then .ok (decode (BitVec.ofNat 130 w)) else .error .notACommandWord

/-- The instruction the decoder reads from the bits `w` of a row of `nbits` bits, numbered as spec/opcode_table.json
numbers them. A command is one word, so bit `n` of the number is bit `n` of the command word (log entry 12). -/
def decodeTableWord (nbits w : Nat) : Option Instr :=
  match decodeNat (w % 2 ^ nbits) with
  | .ok i => some i
  | .error _ => none

/-! ## The opcode map as match and mask -/

/-- R57: "mask = `0x3 << 128` for every row". -/
def opcodeMask : CmdWord := 0x3#130 <<< 128

/-- R57: the rows of the opcode map, each with its match (`op << 128`). -/
def opcodeRows : List (String × CmdWord) :=
  [("RESERVED", 0x0#130 <<< 128), ("EXPAND", 0x1#130 <<< 128),
   ("ENCRYPT", 0x2#130 <<< 128), ("DECRYPT", 0x3#130 <<< 128)]

/-- R57: the table's mnemonic of a command. -/
def mnemonicOf : Instr → String
  | .reserved _ => "RESERVED"
  | .expand _ => "EXPAND"
  | .encrypt _ _ _ => "ENCRYPT"
  | .decrypt _ _ _ => "DECRYPT"

/-- V13: the mnemonics of the rows a command word matches. -/
def matchingRows (w : CmdWord) : List String :=
  (opcodeRows.filter (fun row => w &&& opcodeMask = row.2)).map Prod.fst

end Sys2Proof
end

