-- ==== Sys2Proof/Machine/State.lean ====
section
/-! DEFINITION. The state of CORE as plain data (10_state.md R13), the state after reset (R32) and the reasons a step
can stop. What the spec calls events on the ports (the command presented, the response returned, R13) are fields of the
model's own: the host's inputs to come and the responses so far (log entries 3 and 5). -/

namespace Sys2Proof.Machine

/-- R22: the sequencer's phase; which loop is running. Its binary coding is not fixed. -/
inductive Phase where
  /-- waiting for a command -/
  | idle
  /-- `KS_PACK`: key word packing, R122 -/
  | ksPack
  /-- `KS_INIT`: table initialization, R123 -/
  | ksInit
  /-- `KS_MIX`: the mixing pass, R124 -/
  | ksMix
  /-- `ENC_ROUND`: a round of ENCRYPT, R126 -/
  | encRound
  /-- `DEC_ROUND`: a round of DECRYPT, R128 -/
  | decRound
deriving DecidableEq, Repr

/-- R61: the status codes a response can carry. The code `11` is never produced, so nothing here stands for it. -/
inductive Status where
  /-- `00`: the command did what its rule says -/
  | ok
  /-- `01`: refused because `keyed = 0`, R134 -/
  | notKeyed
  /-- `10`: refused because the opcode is reserved, R135 -/
  | reservedOp
deriving DecidableEq, Repr

/-- R60, R62: the answer to one command. `data` is absent where the response carries no data (log entry 6). -/
structure Response where
  status : Status
  data : Option Block
deriving DecidableEq, Repr

/-- R53: what the host drives on the input pins in one slot of Level M (between two micro-steps). -/
structure Pins where
  rst : Bool
  cmdValid : Bool
  cmdOp : BitVec 2
  cmdData : BitVec 128
deriving DecidableEq, Repr

/-- What the host does next (log entries 3 and 4). -/
inductive HostInput where
  /-- Level T: present this command word and hold it until it is accepted; it then runs to its response in one step. -/
  | command (w : CmdWord)
  /-- Level M: the input pins during one slot, at whose end at most one micro-step is taken. -/
  | slot (p : Pins)
deriving DecidableEq, Repr

/-- The state of the core, 10_state.md R13, and after it the model's own fields. -/
structure State where
  /-- R16: the Expanded Key Table -/
  S : Table
  /-- R20: `S` holds the result of a completed EXPAND -/
  keyed : Bool
  /-- R19: the key words -/
  L : KeyWords
  /-- R19: the latched Secret Key -/
  K : Key
  /-- R15: accumulator -/
  A : Word
  /-- R15: accumulator -/
  B : Word
  /-- R24: cyclic index into `S` -/
  s : Fin 26
  /-- R25: cyclic index into `L` -/
  l : Fin 4
  /-- R23: iteration counter of the current phase -/
  cnt : BitVec 7
  /-- R22: which loop is running -/
  phase : Phase
  /-- the model's own: what the host does from now on, first element next -/
  input : List HostInput
  /-- the model's own: what the response port shows after the last step (`rsp_valid` is `isSome`), R53 -/
  rsp : Option Response
  /-- the model's own: the responses so far, oldest first, R60 and R131 -/
  responses : List Response
  /-- the model's own: how many reset events have drawn free values, R32 -/
  draws : Nat
deriving DecidableEq, Repr

/-- Why the machine stops with a fault. -/
inductive Fault where
  /-- Raised by a micro-step (Machine/Sequencer.lean) in a busy state whose `cnt` is outside its phase's range in R23.
  R27: such states are unreachable from reset and no rule gives them a meaning; 93 U6: "stuck". Safe: the model stops
  where the hardware is undefined, and no run from reset gets there. Log entry 8. -/
  | sequencerOutOfRange
deriving DecidableEq, Repr

/-- Why the model gives an instruction no meaning. -/
inductive Refusal where
  /-- Raised by an arm of `exec` for an instruction that has no meaning yet (none has been left so). Safe: nothing is
  claimed of it. The spec's own refusals (NOT_KEYED, RESERVED_OP) are responses, not this. -/
  | notModelled (mnemonic : String)
deriving DecidableEq, Repr

/-- R32: the machine right after reset: `phase = IDLE`, `keyed = 0`. Every register R32 calls unspecified holds 0
(DESIGN CHOICE, log entry 1, unsafe: the spec gives none); the host has done nothing and nothing has been answered. -/
def State.reset : State where
  S := Vector.replicate 26 0#32
  keyed := false
  L := Vector.replicate 4 0#32
  K := Vector.replicate 16 0#8
  A := 0#32
  B := 0#32
  s := 0
  l := 0
  cnt := 0#7
  phase := .idle
  input := []
  rsp := none
  responses := []
  draws := 0

end Sys2Proof.Machine
end

