-- ==== Sys2Proof/Machine/Flags.lean ====
section
/-! DEFINITION. The status of the core. There are no condition codes and no arithmetic flags (10_state.md R21; 40_datapath.md
R82): the whole of it is the stored bit `keyed` (R20) and the derived signals `busy` (R26) and `cmd_ready` (30_encoding.md R53). -/

namespace Sys2Proof.Machine

/-- R26: `busy` is `phase != IDLE`. -/
def State.busy (st : State) : Bool := st.phase != .idle

/-- R53, R66: `cmd_ready = not busy`. -/
def State.ready (st : State) : Bool := !st.busy

/-- R20: set when an EXPAND completes. -/
def State.setKeyed (st : State) : State := { st with keyed := true }

/-- R20: cleared when an EXPAND is accepted at Level M, and by reset. -/
def State.clearKeyed (st : State) : State := { st with keyed := false }

end Sys2Proof.Machine
end

