-- ==== Sys2Proof/Machine/Datapath.lean ====
section
/-! DEFINITION. The modular-add-and-rotate datapath (40_datapath.md): exactly five functions, each total and pure (R70),
and the shift and extension the key packing uses (R84). None writes a flag or raises anything (R82). -/

namespace Sys2Proof.Machine

/-- R71: `(x + y) mod 2^32`; the carry is discarded. -/
def add32 (x y : Word) : Word := x + y

/-- R72: `(x - y) mod 2^32`; the borrow is discarded. -/
def sub32 (x y : Word) : Word := x - y

/-- R73: bitwise exclusive or. -/
def xor32 (x y : Word) : Word := x ^^^ y

/-- 00_scope.md section 5: `SHL32(x, n) = (x << n) mod 2^32`. -/
def shl32 (x : Word) (n : Nat) : Word := x <<< n

/-- 00_scope.md section 5: `SHR32(x, n) = x >> n`. -/
def shr32 (x : Word) (n : Nat) : Word := x >>> n

/-- R74, R76: the amount of a rotation is used modulo 32. -/
def rotAmount (n : Word) : Nat := n.toNat % 32

/-- R74: left rotation by `n mod 32`; R77: the amount 0 is a case of its own, so that no shift by 32 is evaluated. -/
def rotl32 (v n : Word) : Word :=
  if rotAmount n = 0 then v
  else shl32 v (rotAmount n) ||| shr32 v (32 - rotAmount n)

/-- R75: right rotation by `n mod 32`. -/
def rotr32 (v n : Word) : Word :=
  if rotAmount n = 0 then v
  else shr32 v (rotAmount n) ||| shl32 v (32 - rotAmount n)

/-- 00_scope.md section 5: `zext_32` of a key byte; R58: never a sign extension. -/
def zext32 (b : Byte) : Word := b.setWidth 32

end Sys2Proof.Machine
end

