-- ==== Sys2Proof/Machine/Operands.lean ====
section
/-! DEFINITION. Operand and result assembly: the block operand as a pair (30_encoding.md R59), the result block and the
response as bits (R60, R61, R62), and the command word on the input pins (R53, R54). Key bytes and block words are cut
out of the command word by the decoder (Decode.lean, R58, R59). -/

namespace Sys2Proof.Machine

/-- R59: `w0` becomes the `A` side and `w1` the `B` side; used as they are. -/
def blockOf (w1 w0 : Word) : Block := ⟨w0, w1⟩

/-- R62: a result block on `rsp_data`: word 1 in the bits 63:32, word 0 in the bits 31:0. -/
def blockBits (b : Block) : BitVec 64 := b.w1 ++ b.w0

/-- R61: the two bits of a status. -/
def statusCode : Status → BitVec 2
  | .ok => 0b00#2
  | .notKeyed => 0b01#2
  | .reservedOp => 0b10#2

/-- R62: `rsp_data`. Where the response carries no data its value is unspecified: it is then `fill`, whatever that is. -/
def responseData (fill : BitVec 64) (r : Response) : BitVec 64 :=
  match r.data with
  | some b => blockBits b
  | none => fill

/-- R60: the response word `{rsp_status[1:0], rsp_data[63:0]}`. -/
def responseWord (fill : BitVec 64) (r : Response) : BitVec 66 :=
  statusCode r.status ++ responseData fill r

/-- R54: the command word the pins carry. -/
def pinsWord (p : Pins) : CmdWord := cmdWord p.cmdOp p.cmdData

/-- R53: the pins of a host that does nothing in a slot. -/
def quietPins : Pins := ⟨false, false, 0#2, 0#128⟩

/-- R53, R66: the pins of a host that presents a command in a slot. -/
def presentPins (w : CmdWord) : Pins := ⟨false, true, cmdOp w, cmdData w⟩

/-- R148: the pins of a host that asserts reset in a slot. -/
def resetPins : Pins := ⟨true, false, 0#2, 0#128⟩

end Sys2Proof.Machine
end

