-- ==== Sys2Proof/Machine/Ops.lean ====
section
/-! DEFINITION. The named operations over the state that the meanings and the micro-steps share: the sequencer's moves
(10_state.md R22, R23), answering a command (30_encoding.md R60), refusing one (60_exceptions.md R134 to R136, R140),
acceptance (43_command_sequencing.md R118) and the reset event (70_reset_and_hazards.md R148). -/

namespace Sys2Proof.Machine

/-- The outcome of a step of this machine. -/
abbrev StepOutcome := Host.Outcome State Fault Refusal

/-! ## Writes of the registers -/

/-- R22: `phase <- X` and `cnt <- n`, what stands for a jump in this machine. -/
def State.goto (st : State) (p : Phase) (n : BitVec 7) : State :=
  { st with phase := p, cnt := n }

/-- R126, R128: `phase <- IDLE`, the counter stays where the loop left it. -/
def State.toIdle (st : State) : State := { st with phase := .idle }

/-- R15: writes the pair of accumulators. -/
def State.setAB (st : State) (ab : Block) : State := { st with A := ab.w0, B := ab.w1 }

/-- R15: the pair of accumulators, the `A` side as word 0. -/
def State.getAB (st : State) : Block := ⟨st.A, st.B⟩

/-- R121: latches the key operand into `K`. -/
def State.latchKey (st : State) (key : Key) : State := { st with K := key }

/-- R16: writes the whole table. -/
def State.setTable (st : State) (S : Table) : State := { st with S := S }

/-- R19: writes the four key words. -/
def State.setKeyWords (st : State) (L : KeyWords) : State := { st with L := L }

/-! ## Answering and refusing -/

/-- R53: the response port shows nothing. -/
def State.quietRsp (st : State) : State := { st with rsp := none }

/-- 00_scope.md section 5, R60: `respond(STATUS, data)`: one response, after those before it. -/
def State.respond (st : State) (status : Status) (data : Option Block) : State :=
  { st with rsp := some ⟨status, data⟩, responses := st.responses ++ [⟨status, data⟩] }

/-- R140, R136: what "trap entry" reduces to here: the response carries the code and no data, nothing is saved, no mode
or mask changes, control goes nowhere. R141: there is no return operation and nothing to restore. -/
def State.refuse (st : State) (code : Status) : State := st.respond code none

/-! ## Acceptance -/

/-- R118, R66: a command takes effect only in a state with `cmd_ready = 1`. While the core is busy a presented command is
neither accepted nor lost: it changes nothing here, and the machine's step holds it (Machine/Sequencer.lean). Log entry 7. -/
def State.whenReady (st : State) (effect : State → StepOutcome) : StepOutcome :=
  if st.ready then effect st else .next st

/-- R134: a block command with `keyed = 0` is refused with NOT_KEYED; with `keyed = 1` it has its effect. -/
def State.whenKeyed (st : State) (effect : State → StepOutcome) : StepOutcome :=
  if st.keyed then effect st else .next (st.refuse .notKeyed)

/-! ## Reset -/

/-- R148: the reset event: `phase <- IDLE`, `keyed <- 0`, no response. Every other register "keeps or loses its value
(unspecified)" (R32): each takes a free value, drawn anew at every reset event (log entry 2). -/
def State.resetEvent (st : State) : State :=
  { st with
    S := Config.resetTable st.draws
    keyed := false
    L := Config.resetKeyWords st.draws
    K := Config.resetKey st.draws
    A := Config.resetA st.draws
    B := Config.resetB st.draws
    s := Config.resetS st.draws
    l := Config.resetL st.draws
    cnt := Config.resetCnt st.draws
    phase := .idle
    rsp := none
    draws := st.draws + 1 }

end Sys2Proof.Machine
end

