-- ==== Sys2Proof/Machine/BlockTransform.lean ====
section
/-! DEFINITION. The block transform (42_block_transform.md): the pure functions EncFn and DecFn with their rounds (R100 to
R110) and the meanings of ENCRYPT (R105) and DECRYPT (R111). A pair of accumulators is a Block, its `A` side word 0. -/

namespace Sys2Proof.Machine

/-- R35: `S[2*i]` for round `i = r + 1`, the word used with `A`. -/
def roundKeyA (S : Table) (r : Round) : Word := S[2 * (r.val + 1)]'(by omega)

/-- R35: `S[2*i+1]` for round `i = r + 1`, the word used with `B`. -/
def roundKeyB (S : Table) (r : Round) : Word := S[2 * (r.val + 1) + 1]'(by omega)

/-! ## Encrypt -/

/-- R101: `EncWhiten`. -/
def encWhiten (S : Table) (p : Block) : Block := ⟨add32 p.w0 S[0], add32 p.w1 S[1]⟩

/-- R102, R103: `EncRound`; the second statement uses the NEW `A`, as operand and as amount. -/
def encRound (S : Table) (r : Round) (ab : Block) : Block :=
  let a := add32 (rotl32 (xor32 ab.w0 ab.w1) ab.w1) (roundKeyA S r)
  let b := add32 (rotl32 (xor32 ab.w1 a) a) (roundKeyB S r)
  ⟨a, b⟩

/-- R100: the rounds 1, 2, ..., `n` in this order. -/
def encRounds (S : Table) : (n : Nat) → n ≤ 12 → Block → Block
  | 0, _, ab => ab
  | n + 1, h, ab => encRound S ⟨n, h⟩ (encRounds S n (by omega) ab)

/-- R100, R104: `EncFn`. -/
def encFn (S : Table) (p : Block) : Block := encRounds S 12 (Nat.le_refl 12) (encWhiten S p)

/-! ## Decrypt -/

/-- R108, R109: `DecRound`; `B` first, with the old `A`, then `A` with the NEW `B`. -/
def decRound (S : Table) (r : Round) (ab : Block) : Block :=
  let b := xor32 (rotr32 (sub32 ab.w1 (roundKeyB S r)) ab.w0) ab.w0
  let a := xor32 (rotr32 (sub32 ab.w0 (roundKeyA S r)) b) b
  ⟨a, b⟩

/-- R106: the rounds `n`, `n - 1`, ..., 1 in this order. -/
def decRounds (S : Table) : (n : Nat) → n ≤ 12 → Block → Block
  | 0, _, ab => ab
  | n + 1, h, ab => decRounds S n (by omega) (decRound S ⟨n, h⟩ ab)

/-- R110: the final un-whitening. -/
def decUnwhiten (S : Table) (ab : Block) : Block := ⟨sub32 ab.w0 S[0], sub32 ab.w1 S[1]⟩

/-- R106, R107: `DecFn`; no whitening key is applied on the way in. -/
def decFn (S : Table) (c : Block) : Block := decUnwhiten S (decRounds S 12 (Nat.le_refl 12) c)

/-! ## The commands -/

/-- R105: what a keyed ENCRYPT does: the scratch `A = c0`, `B = c1`, `cnt = 12`, and the answer OK with the ciphertext. -/
def State.encryptBlock (st : State) (p : Block) : State :=
  let c := encFn st.S p
  ((st.setAB c).goto .idle 12#7).respond .ok (some c)

/-- R111: what a keyed DECRYPT does: the scratch `A`, `B` as they are before un-whitening, `cnt = 1`, and the answer OK
with the plaintext. -/
def State.decryptBlock (st : State) (c : Block) : State :=
  let ab := decRounds st.S 12 (Nat.le_refl 12) c
  ((st.setAB ab).goto .idle 1#7).respond .ok (some (decUnwhiten st.S ab))

/-- R105: ENCRYPT at Level T; R134: refused with NOT_KEYED while `keyed = 0`. -/
def execEncrypt (w1 w0 : Word) (st : State) : StepOutcome :=
  st.whenReady fun st => st.whenKeyed fun st => .next (st.encryptBlock (blockOf w1 w0))

/-- R111: DECRYPT at Level T; R134: refused with NOT_KEYED while `keyed = 0`. -/
def execDecrypt (w1 w0 : Word) (st : State) : StepOutcome :=
  st.whenReady fun st => st.whenKeyed fun st => .next (st.decryptBlock (blockOf w1 w0))

end Sys2Proof.Machine
end

