-- ==== Sys2Proof/Machine/KeySchedule.lean ====
section
/-! DEFINITION. The key schedule expander (41_key_schedule.md): the pure functions PackFn, InitTable, MixStep, MixFn and
ExpandFn (R85 to R90), each loop body once so that the micro-steps of Level M run the same body, and the meaning of
EXPAND (R91). -/

namespace Sys2Proof.Machine

/-! ## Step 1: key word packing -/

/-- R86: `i div 4`, the key word that key byte `i` goes to. -/
def packIndex (i : Fin 16) : Fin 4 := ⟨i.val / 4, by omega⟩

/-- R86, R84: one iteration of the packing loop, `L[i div 4] <- ADD32(SHL32(L[i div 4], 8), zext_32(key[i]))`. -/
def packStep (key : Key) (L : KeyWords) (i : Fin 16) : KeyWords :=
  L.set (packIndex i) (add32 (shl32 L[packIndex i] 8) (zext32 key[i]))

/-- R86: the iterations for the key bytes `n - 1` down to 0. -/
def packLoop (key : Key) : (n : Nat) → n ≤ 16 → KeyWords → KeyWords
  | 0, _, L => L
  | n + 1, h, L => packLoop key n (by omega) (packStep key L ⟨n, h⟩)

/-- R86: the four key words before packing, all zero. -/
def zeroKeyWords : KeyWords := Vector.replicate 4 0#32

/-- R86: `PackFn`. -/
def packFn (key : Key) : KeyWords := packLoop key 16 (Nat.le_refl 16) zeroKeyWords

/-! ## Step 2: table initialization -/

/-- R87: one iteration of the initialization loop, `S[0] <- P` or `S[i] <- ADD32(S[i-1], Q)`. -/
def initStep (S : Table) (i : Fin 26) : Table :=
  if i.val = 0 then S.set i Config.magicP
  else S.set i (add32 (S[i.val - 1]'(by omega)) Config.magicQ)

/-- R87: word `i` of the initial table. -/
def initWord : Nat → Word
  | 0 => Config.magicP
  | i + 1 => add32 (initWord i) Config.magicQ

/-- R87: `InitTable`, which does not depend on the key. -/
def initTable : Table := Vector.ofFn (fun i : Fin 26 => initWord i.val)

/-! ## Step 3: the mixing pass -/

/-- R88: what the mixing pass works on. -/
structure Mix where
  S : Table
  L : KeyWords
  A : Word
  B : Word
  s : Fin 26
  l : Fin 4
deriving DecidableEq, Repr

/-- R24: `s <- (s + 1) mod 26`. -/
def nextS (s : Fin 26) : Fin 26 := ⟨(s.val + 1) % 26, Nat.mod_lt _ (by decide)⟩

/-- R25: `l <- (l + 1) mod 4`. -/
def nextL (l : Fin 4) : Fin 4 := ⟨(l.val + 1) % 4, Nat.mod_lt _ (by decide)⟩

/-- R88: the mixing pass starts with `A`, `B`, `s`, `l` all 0. -/
def mixStart (S : Table) (L : KeyWords) : Mix := ⟨S, L, 0#32, 0#32, 0, 0⟩

/-- R89: the word the first statement writes to `S[s]` and `A`, from the old `A` and `B`. -/
def mixA (m : Mix) : Word := rotl32 (add32 (add32 m.S[m.s] m.A) m.B) Config.aRot

/-- R89, R92, R93: the word the second statement writes to `L[l]` and `B`: `a` is the NEW `A`, `m.B` the old `B`. -/
def mixB (m : Mix) (a : Word) : Word := rotl32 (add32 (add32 m.L[m.l] a) m.B) (add32 a m.B)

/-- R89: `MixStep`, one iteration of the mixing pass. -/
def mixStep (m : Mix) : Mix :=
  let a := mixA m
  let b := mixB m a
  { S := m.S.set m.s a, L := m.L.set m.l b, A := a, B := b, s := nextS m.s, l := nextL m.l }

/-- R90: `MixFn`, exactly 78 iterations from the start of R88. Unfolded only by its lemma `mixFn_eq`, so that a proof about
an EXPAND never runs the loop by accident; evaluation by the kernel is unaffected. -/
@[irreducible] def mixFn (S : Table) (L : KeyWords) : Mix := mixStep^[Config.mixIterations] (mixStart S L)

/-- R85: `ExpandFn`. -/
def expandFn (key : Key) : Table := (mixFn initTable (packFn key)).S

/-! ## The same over the state -/

/-- The registers the mixing pass works on. -/
def State.getMix (st : State) : Mix := ⟨st.S, st.L, st.A, st.B, st.s, st.l⟩

/-- Writes the registers the mixing pass works on. -/
def State.setMix (st : State) (m : Mix) : State :=
  { st with S := m.S, L := m.L, A := m.A, B := m.B, s := m.s, l := m.l }

/-- R91, R97: what a completed EXPAND leaves: the table, the latched key, the scratch of the mixing pass, `cnt = 77`
(R124), `phase = IDLE` and `keyed = 1`. -/
def State.expandKey (st : State) (key : Key) : State :=
  (((st.latchKey key).setMix (mixFn initTable (packFn key))).goto .idle 77#7).setKeyed

/-- R91: EXPAND at Level T. It has no failure case (R95). -/
def execExpand (key : Key) (st : State) : StepOutcome :=
  st.whenReady fun st => .next ((st.expandKey key).respond .ok none)

end Sys2Proof.Machine
end

