-- ==== Sys2Proof/Machine/Reserved.lean ====
section
/-! DEFINITION. The reserved opcode (43_command_sequencing.md R129; 30_encoding.md R63): accepted, writes no state, answered
with RESERVED_OP. -/

namespace Sys2Proof.Machine

/-- R129: RESERVED at both levels; the operand is ignored, so it is no argument. -/
def execReserved (st : State) : StepOutcome :=
  st.whenReady fun st => .next (st.refuse .reservedOp)

end Sys2Proof.Machine
end

