-- ==== Sys2Proof/Machine/Dispatch.lean ====
section
/-! DEFINITION. The Level T transition of each command (43_command_sequencing.md R120): one arm per row of the opcode table.
Ignored operand bits (30_encoding.md R64) are dropped here. -/

namespace Sys2Proof.Machine

def exec (i : Instr) (s : State) : Host.Outcome State Fault Refusal :=
  match i with
  | .reserved _ => Sys2Proof.Machine.execReserved s
  | .expand key => Sys2Proof.Machine.execExpand key s
  | .encrypt _ w1 w0 => Sys2Proof.Machine.execEncrypt w1 w0 s
  | .decrypt _ w1 w0 => Sys2Proof.Machine.execDecrypt w1 w0 s

end Sys2Proof.Machine
end

