-- ==== Sys2Proof/Machine/Sequencer.lean ====
section
/-! DEFINITION. The sequencer: the acceptance of a command and the micro-steps of Level M (43_command_sequencing.md R121 to
R129), one slot of the ports (R118; 30_encoding.md R66; 70_reset_and_hazards.md R148), and how a step takes the host's
next input. -/

namespace Sys2Proof.Machine

/-! ## Acceptance micro-steps -/

/-- R121: EXPAND is accepted: the key is latched, `L` zeroed, `keyed` cleared. -/
def State.acceptExpand (st : State) (key : Key) : State :=
  ((((st.latchKey key).setKeyWords zeroKeyWords).clearKeyed).goto .ksPack 15#7)

/-- R125: ENCRYPT is accepted with `keyed = 1`: the whitened block is loaded into `A`, `B`. -/
def State.acceptEncrypt (st : State) (p : Block) : State :=
  (st.setAB (encWhiten st.S p)).goto .encRound 1#7

/-- R127: DECRYPT is accepted with `keyed = 1`: the block is loaded into `A`, `B` as it is. -/
def State.acceptDecrypt (st : State) (c : Block) : State :=
  (st.setAB c).goto .decRound 12#7

/-- R121, R125, R127, R129: the acceptance micro-step of a command in a state with `phase = IDLE`. A refusal is complete
in this one micro-step. -/
def State.accept (st : State) : Instr → State
  | .reserved _ => st.refuse .reservedOp
  | .expand key => st.acceptExpand key
  | .encrypt _ w1 w0 => if st.keyed then st.acceptEncrypt (blockOf w1 w0) else st.refuse .notKeyed
  | .decrypt _ w1 w0 => if st.keyed then st.acceptDecrypt (blockOf w1 w0) else st.refuse .notKeyed

/-! ## The micro-steps of a running command -/

/-- R122: the `KS_PACK` micro-step for key byte `i`. -/
def State.packMicro (st : State) (i : Fin 16) : State :=
  let t := st.setKeyWords (packStep st.K st.L i)
  if i.val = 0 then t.goto .ksInit 0#7 else t.goto .ksPack (BitVec.ofNat 7 (i.val - 1))

/-- R123: the `KS_INIT` micro-step for table word `i`; the last one sets the start of the mixing pass (R88). -/
def State.initMicro (st : State) (i : Fin 26) : State :=
  let t := st.setTable (initStep st.S i)
  if i.val = 25 then (t.setMix (mixStart t.S t.L)).goto .ksMix 0#7
  else t.goto .ksInit (BitVec.ofNat 7 (i.val + 1))

/-- R124: the `KS_MIX` micro-step for iteration `k`; the last one sets `keyed` and answers, and `cnt` stays 77. -/
def State.mixMicro (st : State) (k : Fin 78) : State :=
  let t := st.setMix (mixStep st.getMix)
  if k.val = 77 then (t.setKeyed.respond .ok none).toIdle
  else t.goto .ksMix (BitVec.ofNat 7 (k.val + 1))

/-- R126: the `ENC_ROUND` micro-step for round `i = r + 1`; the last one answers, and `cnt` stays 12. -/
def State.encMicro (st : State) (r : Round) : State :=
  let t := st.setAB (encRound st.S r st.getAB)
  if r.val = 11 then (t.respond .ok (some t.getAB)).toIdle
  else t.goto .encRound (BitVec.ofNat 7 (r.val + 2))

/-- R128: the `DEC_ROUND` micro-step for round `i = r + 1`; the last one answers with the un-whitened block, `cnt` stays 1
and `A`, `B` are not un-whitened in place. -/
def State.decMicro (st : State) (r : Round) : State :=
  let t := st.setAB (decRound st.S r st.getAB)
  if r.val = 0 then (t.respond .ok (some (decUnwhiten t.S t.getAB))).toIdle
  else t.goto .decRound (BitVec.ofNat 7 r.val)

/-- R22, R27: one micro-step of the running command, chosen by (`phase`, `cnt`). A `cnt` outside its phase's range in R23
has no meaning: the machine is stuck, by the fault of that name (log entry 8). An idle core has no micro-step of its own. -/
def State.microStep (st : State) : StepOutcome :=
  match st.phase with
  | .idle => .next st
  | .ksPack => if h : st.cnt.toNat < 16 then .next (st.packMicro ⟨st.cnt.toNat, h⟩) else .fault .sequencerOutOfRange
  | .ksInit => if h : st.cnt.toNat < 26 then .next (st.initMicro ⟨st.cnt.toNat, h⟩) else .fault .sequencerOutOfRange
  | .ksMix => if h : st.cnt.toNat < 78 then .next (st.mixMicro ⟨st.cnt.toNat, h⟩) else .fault .sequencerOutOfRange
  | .encRound =>
    if h : 1 ≤ st.cnt.toNat ∧ st.cnt.toNat ≤ 12 then .next (st.encMicro ⟨st.cnt.toNat - 1, by omega⟩)
    else .fault .sequencerOutOfRange
  | .decRound =>
    if h : 1 ≤ st.cnt.toNat ∧ st.cnt.toNat ≤ 12 then .next (st.decMicro ⟨st.cnt.toNat - 1, by omega⟩)
    else .fault .sequencerOutOfRange

/-! ## One slot of the ports, and the host's next input -/

/-- R118, R138, R148: one slot of Level M. Reset has priority over everything. An idle core accepts a command that is
presented and otherwise waits (R147); a busy core takes its next micro-step, whatever is presented (R66: it is held). -/
def State.slot (st : State) (p : Pins) : StepOutcome :=
  if p.rst then .next st.resetEvent
  else if st.ready then
    .next (if p.cmdValid then st.quietRsp.accept (decode (pinsWord p)) else st.quietRsp)
  else st.quietRsp.microStep

/-- The state once the host's next input has been taken. -/
def State.dropInput (st : State) : State := { st with input := st.input.tail }

/-- How a step takes the host's next input (log entries 3 and 4). A command of Level T is executed whole by `run` as soon
as the core is ready, and held until then (R118, R155). A slot of Level M takes one micro-step at most. With no input
left the host does nothing. -/
def State.takeInput (st : State) (run : Instr → State → StepOutcome) : StepOutcome :=
  match st.input with
  | [] => st.slot quietPins
  | .command w :: _ => if st.ready then run (decode w) st.dropInput else st.slot quietPins
  | .slot p :: _ => st.dropInput.slot p

/-- The state with a command presented at Level T, first of the host's inputs, to a core that can accept it. -/
def State.present (st : State) (w : CmdWord) : State :=
  { st with phase := .idle, input := .command w :: st.input }

end Sys2Proof.Machine
end

