-- ==== Sys2Proof/Machine/Step.lean ====
section
/-! DEFINITION. One step of the machine: the host's next input, executed (00_scope.md R10: Level T, one command; Level M,
one micro-step). -/

namespace Sys2Proof.Machine

/-- One step: everything it does is in `State.takeInput`, `State.slot` and the meanings. -/
def step (st : State) : Host.Outcome State Fault Refusal := st.takeInput exec

/-- The state in which the next step executes the command whose bits are `w`: the host presents it at Level T and the core
is ready (log entry 3). A command is one word of 130 bits. -/
def State.withFetchWord (s : State) (nbits w : Nat) : State :=
  s.present (BitVec.ofNat 130 (w % 2 ^ nbits))

end Sys2Proof.Machine
end

