-- ==== Sys2Proof/Machine/Text.lean ====
section
/-! DEFINITION. The text syntax of command programs (30_encoding.md R67) and the pseudo-commands (R68): reading a line, what
a line assembles to, and the printed form of a command word and of a response (95_test_vectors.md, Notation). Lines are
lists of characters. The host uses these; the core never sees text. Log entry 13. -/

namespace Sys2Proof.Machine

/-- R67, R68: a command as a program writes it. `REKEY` is another spelling of `EXPAND` and has no form of its own. -/
inductive Source where
  /-- `EXPAND b0 b1 ... b15`, key byte 0 first -/
  | expandBytes (bytes : List Byte)
  /-- `EXPAND "cccccccccccccccc"` -/
  | expandText (chars : List Char)
  /-- `ENCRYPT w0, w1` -/
  | encrypt (w0 w1 : Word)
  /-- `DECRYPT w0, w1` -/
  | decrypt (w0 w1 : Word)
  /-- `.op00` -/
  | op00
deriving DecidableEq, Repr

/-- R42, R68: the ASCII code of a character, as a key byte. -/
def asciiByte (c : Char) : Byte := BitVec.ofNat 8 c.toNat

/-- R67: a list of exactly sixteen bytes as the key operand; R95: no other length is a key. -/
def keyOfBytes (bytes : List Byte) : Option Key :=
  if h : keyBytesWellFormed bytes = true then
    some ⟨bytes.toArray, by simpa [keyBytesWellFormed] using h⟩
  else none

/-- R67, R68: the command a line stands for; bits the syntax does not write are 0. -/
def assemble : Source → Option Instr
  | .expandBytes bytes => (keyOfBytes bytes).map .expand
  | .expandText chars =>
    if keyTextWellFormed chars then (keyOfBytes (chars.map asciiByte)).map .expand else none
  | .encrypt w0 w1 => some (.encrypt 0#64 w1 w0)
  | .decrypt w0 w1 => some (.decrypt 0#64 w1 w0)
  | .op00 => some (.reserved 0#128)

/-! ## Reading a line -/

/-- The pieces a line is cut into. -/
inductive Token where
  | word (chars : List Char)
  | quoted (chars : List Char)
  | comma
deriving DecidableEq, Repr

/-- Puts the word read so far (reversed) before the tokens after it. -/
def flushWord (current : List Char) (rest : List Token) : List Token :=
  if current = [] then rest else .word current.reverse :: rest

/-- R67: cuts a line at blanks, commas and double quotes; `;` to end of line is a comment. An open quote is no line. -/
def tokensFrom (current : List Char) (inQuote : Bool) : List Char → Option (List Token)
  | [] => if inQuote then none else some (flushWord current [])
  | c :: cs =>
    if inQuote then
      if c = '\x22' then (tokensFrom [] false cs).map (Token.quoted current.reverse :: ·)
      else tokensFrom (c :: current) true cs
    else if c = ';' then some (flushWord current [])
    else if c = ' ' then (tokensFrom [] false cs).map (flushWord current)
    else if c = ',' then (tokensFrom [] false cs).map (fun ts => flushWord current (.comma :: ts))
    else if c = '\x22' then (tokensFrom [] true cs).map (flushWord current)
    else tokensFrom (c :: current) false cs

/-- The digits 0 to F, in the order of their values. -/
def hexDigits : List Char := ['0', '1', '2', '3', '4', '5', '6', '7', '8', '9', 'A', 'B', 'C', 'D', 'E', 'F']

/-- 00_scope.md section 5: the value of a hexadecimal digit is its place among the digits; upper or lower case is the same
value. -/
def hexValue (digit : Char) : Option Nat := hexDigits.idxOf? digit.toUpper

/-- A hexadecimal number, most significant digit first. -/
def hexNumber (acc : Nat) : List Char → Option Nat
  | [] => some acc
  | c :: cs => (hexValue c).bind fun d => hexNumber (16 * acc + d) cs

/-- R67: a two-digit byte. -/
def readByte : Token → Option Byte
  | .word cs => if cs.length = 2 then (hexNumber 0 cs).map (BitVec.ofNat 8) else none
  | .quoted _ => none
  | .comma => none

/-- R67: an eight-digit word. -/
def readWord : Token → Option Word
  | .word cs => if cs.length = 8 then (hexNumber 0 cs).map (BitVec.ofNat 32) else none
  | .quoted _ => none
  | .comma => none

/-- R67: `w0, w1`. -/
def readBlock : List Token → Option (Word × Word)
  | [t0, .comma, t1] => (readWord t0).bind fun w0 => (readWord t1).map fun w1 => (w0, w1)
  | _ => none

/-- R67, R68: the operand of `EXPAND` or `REKEY`: bytes, or one quoted string. -/
def readKey : List Token → Option Source
  | [.quoted cs] => some (.expandText cs)
  | ts => (ts.mapM readByte).map .expandBytes

/-- R67, R68: a line of a program, cut into tokens. -/
def readTokens : List Token → Option Source
  | .word name :: rest =>
    if name = ['E', 'X', 'P', 'A', 'N', 'D'] ∨ name = ['R', 'E', 'K', 'E', 'Y'] then readKey rest
    else if name = ['E', 'N', 'C', 'R', 'Y', 'P', 'T'] then (readBlock rest).map fun b => .encrypt b.1 b.2
    else if name = ['D', 'E', 'C', 'R', 'Y', 'P', 'T'] then (readBlock rest).map fun b => .decrypt b.1 b.2
    else if name = ['.', 'o', 'p', '0', '0'] ∧ rest = [] then some .op00
    else none
  | _ => none

/-- R67: the command a line of text stands for. -/
def readLine (line : List Char) : Option Instr :=
  ((tokensFrom [] false line).bind readTokens).bind assemble

/-! ## Printing -/

/-- `n` hexadecimal digits of a number, most significant first. -/
def printHex : Nat → Nat → List Char
  | 0, _ => []
  | n + 1, v => printHex n (v / 16) ++ [hexDigits.getD (v % 16) '0']

/-- Two binary digits. -/
def printBits (b : BitVec 2) : List Char :=
  [if b.getLsbD 1 then '1' else '0', if b.getLsbD 0 then '1' else '0']

/-- R67: a command word printed as `op:data`, op in binary and data as 32 hex digits. -/
def printCommand (w : CmdWord) : List Char :=
  printBits (cmdOp w) ++ ':' :: printHex 32 (cmdData w).toNat

/-- 95_test_vectors.md, Notation: a response printed as `status:data`, or `status:-` where it carries no data. -/
def printResponse (r : Response) : List Char :=
  printBits (statusCode r.status) ++ ':' :: (match r.data with
    | some b => printHex 16 (blockBits b).toNat
    | none => ['-'])

end Sys2Proof.Machine
end

