-- ==== Sys2Proof/Machine/LevelT.lean ====
section
/-! DEFINITION. Level T on its own (10_state.md R30; 43_command_sequencing.md R120): the state is an optional table, and a
command maps it to the next table and one response. What the machine does is stated against this. -/

namespace Sys2Proof.Machine

/-- R30: the Level T state: absent when `keyed = 0`, the table when `keyed = 1`. -/
abbrev TState := Option Table

/-- R120: the Level T step function. -/
def levelTStep (t : TState) : Instr → TState × Response
  | .reserved _ => (t, ⟨.reservedOp, none⟩)
  | .expand key => (some (expandFn key), ⟨.ok, none⟩)
  | .encrypt _ w1 w0 =>
    match t with
    | some S => (some S, ⟨.ok, some (encFn S (blockOf w1 w0))⟩)
    | none => (none, ⟨.notKeyed, none⟩)
  | .decrypt _ w1 w0 =>
    match t with
    | some S => (some S, ⟨.ok, some (decFn S (blockOf w1 w0))⟩)
    | none => (none, ⟨.notKeyed, none⟩)

/-- R131: a program is a finite sequence of commands; its end state and its responses, in order. -/
def levelTRun : TState → List Instr → TState × List Response
  | t, [] => (t, [])
  | t, i :: is =>
    let one := levelTStep t i
    let rest := levelTRun one.1 is
    (rest.1, one.2 :: rest.2)

/-- R30: what Level T sees of a state of the machine. -/
def State.levelT (st : State) : TState := if st.keyed then some st.S else none

end Sys2Proof.Machine
end

