-- ==== Sys2Proof/Machine/Ports.lean ====
section
/-! DEFINITION. The output ports as a function of the state (30_encoding.md R53). Nothing else of the state is visible to
the host (10_state.md R28; 43_command_sequencing.md R168). -/

namespace Sys2Proof.Machine

/-- R53: the outputs. `rsp` is `none` where `rsp_valid = 0`, else the response word `{rsp_status, rsp_data}` (R60). -/
structure OutPins where
  cmdReady : Bool
  rsp : Option (BitVec 66)
  keyed : Bool
  busy : Bool
deriving DecidableEq, Repr

/-- R53: the outputs of a state. Where a response carries no data, `rsp_data` is a free value (R62; log entry 6). -/
def State.outPins (st : State) : OutPins where
  cmdReady := st.ready
  rsp := st.rsp.map (responseWord (Config.rspFill st.responses.length))
  keyed := st.keyed
  busy := st.busy

end Sys2Proof.Machine
end

