-- ==== Sys2Proof/Safety.lean ====
section
/-! DEFINITION. What a good state and a safe run of CORE are, in the terms claims use: the invariant of the machine
(10_state.md R17, R20, R23; 30_encoding.md R60, R62), runs of several steps, how many micro-steps a running command still
needs (43_command_sequencing.md R130, 70_reset_and_hazards.md R161), and what the host can observe (10_state.md R28). -/

namespace Sys2Proof.Machine

/-! ## Runs -/

/-- `n` steps of the machine, stopping at the first fault or refusal. -/
def runSteps : Nat → State → StepOutcome
  | 0, st => .next st
  | n + 1, st =>
    match step st with
    | .next t => runSteps n t
    | .fault f => .fault f
    | .refused r => .refused r

/-! ## The invariant -/

/-- R23: the range of `cnt` in the current phase. -/
def State.CntInRange (st : State) : Prop :=
  match st.phase with
  | .idle => True
  | .ksPack => st.cnt.toNat < 16
  | .ksInit => st.cnt.toNat < 26
  | .ksMix => st.cnt.toNat < 78
  | .encRound => 1 ≤ st.cnt.toNat ∧ st.cnt.toNat ≤ 12
  | .decRound => 1 ≤ st.cnt.toNat ∧ st.cnt.toNat ≤ 12

/-- R20: `keyed` is 0 for the whole of an EXPAND; a running block command was accepted with `keyed = 1`. -/
def State.KeyedInPhase (st : State) : Prop :=
  match st.phase with
  | .idle => True
  | .ksPack => st.keyed = false
  | .ksInit => st.keyed = false
  | .ksMix => st.keyed = false
  | .encRound => st.keyed = true
  | .decRound => st.keyed = true

/-- R17: while `keyed = 1` the table is ExpandFn of the latched key, which is the key of the last completed EXPAND. -/
def State.TableIsExpanded (st : State) : Prop :=
  st.keyed = true → st.S = expandFn st.K

/-- R130: how far a running EXPAND has come. `KS_PACK`: the remaining iterations give PackFn. `KS_INIT`: `L` is PackFn and
the words before `cnt` are InitTable's. `KS_MIX`: the mixing registers are after `cnt` iterations. -/
def State.ScheduleProgress (st : State) : Prop :=
  match st.phase with
  | .idle => True
  | .ksPack => ∀ h : st.cnt.toNat + 1 ≤ 16, packLoop st.K (st.cnt.toNat + 1) h st.L = packFn st.K
  | .ksInit => st.L = packFn st.K ∧ ∀ j : Fin 26, j.val < st.cnt.toNat → st.S[j] = initWord j.val
  | .ksMix => st.getMix = mixStep^[st.cnt.toNat] (mixStart initTable (packFn st.K))
  | .encRound => True
  | .decRound => True

/-- R60, R62: the response port shows the last response given, and a refusal carries no data. -/
def State.ResponsesOk (st : State) : Prop :=
  (∀ r, st.rsp = some r → st.responses.getLast? = some r) ∧
  (∀ r ∈ st.responses, r.status ≠ .ok → r.data = none)

/-- The invariant of the machine. -/
structure State.Inv (st : State) : Prop where
  cntInRange : st.CntInRange
  keyedInPhase : st.KeyedInPhase
  tableIsExpanded : st.TableIsExpanded
  scheduleProgress : st.ScheduleProgress
  responsesOk : st.ResponsesOk

/-! ## Progress -/

/-- A safe step: the machine answers a next state; it neither faults nor refuses. -/
def State.StepsSafely (st : State) : Prop := ∃ t, step st = .next t

/-- R130: the micro-steps the running command still needs. -/
def State.remaining (st : State) : Nat :=
  match st.phase with
  | .idle => 0
  | .ksPack => (st.cnt.toNat + 1) + 26 + 78
  | .ksInit => (26 - st.cnt.toNat) + 78
  | .ksMix => 78 - st.cnt.toNat
  | .encRound => 13 - st.cnt.toNat
  | .decRound => st.cnt.toNat

/-- R130: the micro-steps of a command, acceptance included. They depend on the command and on `keyed`, not on operands. -/
def microSteps (keyed : Bool) : Instr → Nat
  | .reserved _ => 1
  | .expand _ => 1 + 16 + 26 + 78
  | .encrypt _ _ _ => if keyed then 1 + 12 else 1
  | .decrypt _ _ _ => if keyed then 1 + 12 else 1

/-! ## What the host observes -/

/-- R28, R131, R168: all a host sees: the outputs and the responses so far; nothing of a machine that has stopped. -/
def observed : StepOutcome → Option (OutPins × List Response)
  | .next st => some (st.outPins, st.responses)
  | .fault _ => none
  | .refused _ => none

/-- Two idle states a Level T observer cannot tell apart: the same Level T state (R30), the same host, the same responses.
The scratch registers, the latched key and, while `keyed = 0`, the table may differ in any way. -/
structure SameAtLevelT (a b : State) : Prop where
  leftIdle : a.phase = .idle
  rightIdle : b.phase = .idle
  levelT : a.levelT = b.levelT
  input : a.input = b.input
  rsp : a.rsp = b.rsp
  responses : a.responses = b.responses

/-- Which commands are EXPAND. -/
def isExpand : Instr → Bool
  | .reserved _ => false
  | .expand _ => true
  | .encrypt _ _ _ => false
  | .decrypt _ _ _ => false

/-- R148: the next thing the host does is to assert reset. -/
def State.resetNext (st : State) : Bool :=
  match st.input with
  | .slot p :: _ => p.rst
  | .command _ :: _ => false
  | [] => false

/-- R118: the command the next step accepts, if it accepts one: at Level T or in a slot of Level M. -/
def State.acceptsNext (st : State) : Option Instr :=
  if st.ready then
    match st.input with
    | .command w :: _ => some (decode w)
    | .slot p :: _ => if p.rst then none else if p.cmdValid then some (decode (pinsWord p)) else none
    | [] => none
  else none

end Sys2Proof.Machine
end

