-- ==== Sys2Proof/Certificates/Slice0/Obligations.lean ====
section
/-! DEFINITION. The statements about CORE for the provers, from the numbered rules of spec/. None is about a program. The
memory clause of a frame has nothing to say here: the hardware has no memory (20_memory.md R34), and the arrays `S`, `L`,
`K` are fields of the state. -/

open Sys2Proof Sys2Proof.Machine

/-! ## Parameters and reset -/

/-- R7: "Derived counts are consistent". -/
def Obligations.DerivedCountsConsistent : Prop :=
  Config.expandedKeySize = 26 ∧ Config.mixIterations = 78 ∧ Config.keyWords = 4 ∧
  Config.expandedKeySize = 2 * (Config.rounds + 1) ∧ Config.mixIterations = 3 * Config.expandedKeySize ∧
  Config.keyWords = Config.keyBytes / 4

/-- R32 (the values it gives): after reset `phase = IDLE`, `keyed = 0`, `busy = 0`, so `cmd_ready = 1`. The other registers
of State.reset hold the model's own choice (log entry 1); nothing is said of them. -/
def Obligations.ResetIsIdleAndUnkeyed : Prop :=
  State.reset.phase = .idle ∧ State.reset.keyed = false ∧ State.reset.outPins = ⟨true, none, false, false⟩

/-- R148, R138: whatever the state and whatever else the pins carry, a slot with `rst = 1` leaves `phase = IDLE` and
`keyed = 0`, accepts nothing, takes no micro-step that answers, and gives no response; the core is then ready. -/
def Obligations.ResetEventAtAnyMoment : Prop :=
  ∀ (st : State) (p : Pins) (rest : List HostInput), st.input = .slot p :: rest → p.rst = true →
    ∃ t, step st = .next t ∧ t.phase = .idle ∧ t.keyed = false ∧ t.ready = true ∧
      t.input = rest ∧ t.rsp = none ∧ t.responses = st.responses

/-- R52, R142, R149: after a reset at any moment (in the middle of an EXPAND too) every block command is refused, and an
EXPAND gives the table of its own key, whatever the abandoned command left behind. -/
def Obligations.ResetForgetsTheKey : Prop :=
  ∀ (st : State) (ig : BitVec 64) (w1 w0 : Word) (key : Key),
    (exec (.encrypt ig w1 w0) st.resetEvent = .next (st.resetEvent.respond .notKeyed none)) ∧
    (exec (.decrypt ig w1 w0) st.resetEvent = .next (st.resetEvent.respond .notKeyed none)) ∧
    ∃ t, exec (.expand key) st.resetEvent = .next t ∧ t.keyed = true ∧ t.S = expandFn key

/-! ## The datapath -/

/-- R71, R72, R73: `ADD32(x, y) = (x + y) mod 2^32`; `SUB32(x, y) = (x - y) mod 2^32`, the non-negative remainder; bit `i` of
XOR32 is `x[i] xor y[i]`. -/
def Obligations.AddSubXorValues : Prop :=
  ∀ x y : Word,
    (add32 x y).toNat = (x.toNat + y.toNat) % 2 ^ 32 ∧
    ((sub32 x y).toNat : Int) = ((x.toNat : Int) - (y.toNat : Int)) % 2 ^ 32 ∧
    ∀ i : Nat, i < 32 → (xor32 x y).getLsbD i = (x.getLsbD i ^^ y.getLsbD i)

/-- R74, R75: bit `i` of ROTL32 is bit `(i - r) mod 32` of `v` and bit `i` of ROTR32 is bit `(i + r) mod 32`, with
`r = n mod 32`, for every amount `n`. -/
def Obligations.RotationsMoveBits : Prop :=
  ∀ (v n : Word) (i : Nat), i < 32 →
    (rotl32 v n).getLsbD i = v.getLsbD ((i + 32 - n.toNat % 32) % 32) ∧
    (rotr32 v n).getLsbD i = v.getLsbD ((i + n.toNat % 32) % 32)

/-- R76, R77: only `n mod 32` affects a rotation, and an amount with `n mod 32 = 0` returns `v` unchanged. -/
def Obligations.RotationAmountIsModulo32 : Prop :=
  ∀ v n : Word,
    rotl32 v n = rotl32 v (BitVec.ofNat 32 (n.toNat % 32)) ∧ rotr32 v n = rotr32 v (BitVec.ofNat 32 (n.toNat % 32)) ∧
    (n.toNat % 32 = 0 → rotl32 v n = v ∧ rotr32 v n = v)

/-- R78: the rotations invert each other, for every amount. -/
def Obligations.RotationsInvertEachOther : Prop :=
  ∀ x n : Word, rotl32 (rotr32 x n) n = x ∧ rotr32 (rotl32 x n) n = x

/-- R81: one rotator gives the other. -/
def Obligations.RotrIsRotlOfComplement : Prop :=
  ∀ v n : Word, rotr32 v n = rotl32 v (BitVec.ofNat 32 ((32 - n.toNat % 32) % 32))

/-- R79, R80, R83: addition and subtraction undo each other, XOR undoes itself, ADD32 is commutative and associative, and the
amount `(A + B) mod 32` is that of `ADD32(A, B)`. -/
def Obligations.AddSubXorLaws : Prop :=
  ∀ x y z : Word,
    sub32 (add32 x y) y = x ∧ add32 (sub32 x y) y = x ∧ xor32 (xor32 x y) y = x ∧
    add32 x y = add32 y x ∧ add32 (add32 x y) z = add32 x (add32 y z) ∧
    (add32 (add32 x y) z).toNat = (x.toNat + y.toNat + z.toNat) % 2 ^ 32 ∧
    (x.toNat + y.toNat) % 32 = (add32 x y).toNat % 32

/-- R84: the packing update never carries: it is the bitwise OR of the shifted word and the byte. -/
def Obligations.PackingUpdateNeverCarries : Prop :=
  ∀ (w : Word) (b : Byte), add32 (shl32 w 8) (zext32 b) = (shl32 w 8 ||| zext32 b)

/-! ## The key schedule -/

/-- R39 (the net effect of R86): key bytes are packed little-endian, each byte unsigned, and nothing is lost. -/
def Obligations.KeyPacksLittleEndian : Prop :=
  ∀ (key : Key) (j : Fin 4),
    (packFn key)[j].toNat =
      (key[4 * j.val]'(by omega)).toNat + (key[4 * j.val + 1]'(by omega)).toNat * 2 ^ 8 +
      (key[4 * j.val + 2]'(by omega)).toNat * 2 ^ 16 + (key[4 * j.val + 3]'(by omega)).toNat * 2 ^ 24

/-- R58: `K[i]` is `cmd_data[8*i+7 : 8*i]`, and `L[j]` after packing equals `cmd_data[32*j+31 : 32*j]`. -/
def Obligations.KeyWordsAreOperandSlices : Prop :=
  ∀ data : BitVec 128,
    (∀ i : Fin 16, (keyOfData data)[i] = data.extractLsb' (8 * i.val) 8) ∧
    (∀ j : Fin 4, (packFn (keyOfData data))[j] = data.extractLsb' (32 * j.val) 32)

/-- R87: the recurrence of InitTable and its closed form `S[i] = (P + i*Q) mod 2^32`. -/
def Obligations.InitTableIsArithmeticProgression : Prop :=
  initTable[0] = Config.magicP ∧
  (∀ i : Fin 25, (initTable[i.val + 1]'(by omega)) = add32 (initTable[i.val]'(by omega)) Config.magicQ) ∧
  (∀ i : Fin 26, initTable[i].toNat = (Config.magicP.toNat + i.val * Config.magicQ.toNat) % 2 ^ 32)

/-- R89, R92, R93: one mixing iteration: the word written to `S[s]` and `A`, then the word written to `L[l]` and `B` from
the NEW `A` and the old `B`, then the indices; every other word stays. -/
def Obligations.MixStepWritesInOrder : Prop :=
  ∀ (m : Mix) (a b : Word),
    a = rotl32 (add32 (add32 m.S[m.s] m.A) m.B) 3#32 → b = rotl32 (add32 (add32 m.L[m.l] a) m.B) (add32 a m.B) →
    (mixStep m).A = a ∧ (mixStep m).B = b ∧ (mixStep m).S[m.s] = a ∧ (mixStep m).L[m.l] = b ∧
    (∀ i : Fin 26, i ≠ m.s → (mixStep m).S[i] = m.S[i]) ∧ (∀ j : Fin 4, j ≠ m.l → (mixStep m).L[j] = m.L[j]) ∧
    (mixStep m).s.val = (m.s.val + 1) % 26 ∧ (mixStep m).l.val = (m.l.val + 1) % 4

/-- R90, R24, R25: iteration `k` uses `s = k mod 26` and `l = k mod 4`. -/
def Obligations.MixIndicesAreModular : Prop :=
  ∀ (S : Table) (L : KeyWords) (k : Nat),
    (mixStep^[k] (mixStart S L)).s.val = k % 26 ∧ (mixStep^[k] (mixStart S L)).l.val = k % 4

/-- R94: the table after all 78 iterations: word `i` is what iteration `i + 52`, its third and last rewrite, wrote. -/
def Obligations.TableIsLastSweep : Prop :=
  ∀ (S : Table) (L : KeyWords) (i : Fin 26),
    (mixFn S L).S[i] = (mixStep^[i.val + 53] (mixStart S L)).A

/-- R96: the first iteration writes 0xBF0A8B1D to `S[0]` for every key, and the first key word is rotated by 29. -/
def Obligations.FirstIterationKeyIndependent : Prop :=
  ∀ key : Key, ∀ m : Mix, m = mixStep (mixStart initTable (packFn key)) →
    m.S[0] = 0xBF0A8B1D#32 ∧ m.A = 0xBF0A8B1D#32 ∧
    m.L[0] = rotl32 (add32 (packFn key)[0] 0xBF0A8B1D#32) 29#32 ∧
    (key = Vector.replicate 16 0#8 → m.L[0] = 0xB7E15163#32)

/-! ## The block transform -/

/-- R101, R102, R103, R107 to R110: the statements of whitening, of the rounds and of un-whitening, with the second
statement of an encrypt round using the NEW `A` and that of a decrypt round the NEW `B`. -/
def Obligations.RoundStatements : Prop :=
  ∀ (S : Table) (r : Round) (a b x y : Word),
    encWhiten S ⟨a, b⟩ = ⟨add32 a S[0], add32 b S[1]⟩ ∧
    (x = add32 (rotl32 (xor32 a b) b) (S[2 * (r.val + 1)]'(by omega)) →
      y = add32 (rotl32 (xor32 b x) x) (S[2 * (r.val + 1) + 1]'(by omega)) → encRound S r ⟨a, b⟩ = ⟨x, y⟩) ∧
    (y = xor32 (rotr32 (sub32 b (S[2 * (r.val + 1) + 1]'(by omega))) a) a →
      x = xor32 (rotr32 (sub32 a (S[2 * (r.val + 1)]'(by omega))) y) y → decRound S r ⟨a, b⟩ = ⟨x, y⟩) ∧
    decUnwhiten S ⟨a, b⟩ = ⟨sub32 a S[0], sub32 b S[1]⟩

/-- R113: each decrypt round undoes the encrypt round of the same index. -/
def Obligations.DecRoundUndoesEncRound : Prop :=
  ∀ (S : Table) (r : Round) (ab : Block), decRound S r (encRound S r ab) = ab

/-- R114 with R112's function form: for every table, DecFn and EncFn are inverse to each other, so EncFn is a bijection on
blocks. -/
def Obligations.BlockFunctionsAreInverse : Prop :=
  ∀ S : Table, (∀ x : Block, decFn S (encFn S x) = x) ∧ (∀ y : Block, encFn S (decFn S y) = y) ∧
    Function.Bijective (encFn S)

/-! ## Encoding -/

/-- R54 to R57: decoding the word of any command gives that command, ignored bits included. -/
def Obligations.DecodeInvertsEncode : Prop :=
  ∀ i : Instr, i.wellFormed = true → decode (encode i) = i

/-- R54, R64: every command word is the word of the command it decodes to: decoding loses no bit and refuses no word. -/
def Obligations.EncodeInvertsDecode : Prop :=
  ∀ w : CmdWord, encode (decode w) = w ∧ (decode w).wellFormed = true

/-- R57: every command word matches exactly one row of the opcode map, that of the command it decodes to. -/
def Obligations.OneRowMatchesEachWord : Prop :=
  ∀ w : CmdWord, matchingRows w = [mnemonicOf (decode w)]

/-- R55, R56, R63: what each opcode's word decodes to, operand field by operand field. -/
def Obligations.OperandFieldsOfEachFormat : Prop :=
  ∀ data : BitVec 128,
    decode (cmdWord 0b00#2 data) = .reserved data ∧
    (∃ key : Key, decode (cmdWord 0b01#2 data) = .expand key ∧
      ∀ i : Fin 16, key[i] = data.extractLsb' (8 * i.val) 8) ∧
    decode (cmdWord 0b10#2 data) =
      .encrypt (data.extractLsb' 64 64) (data.extractLsb' 32 32) (data.extractLsb' 0 32) ∧
    decode (cmdWord 0b11#2 data) =
      .decrypt (data.extractLsb' 64 64) (data.extractLsb' 32 32) (data.extractLsb' 0 32)

/-- V13's words, one of each row of the table, decode to the commands they stand for (a sanity statement). That bit `n` of
the table's number is bit `n` of the command word, and that a number is refused exactly when it has more than 130 bits, are
the model's reading (log entry 12, DEDUCED): the spec has one length of 130 bits and says nothing of other numbers. -/
def Obligations.WrittenWordsDecode : Prop :=
  decodeTableWord 136 0x10F0E0D0C0B0A09080706050403020100 =
    some (.expand #v[0x00, 0x01, 0x02, 0x03, 0x04, 0x05, 0x06, 0x07, 0x08, 0x09, 0x0A, 0x0B, 0x0C, 0x0D, 0x0E, 0x0F]) ∧
  decodeTableWord 136 0x20000000000000000776F726474657374 = some (.encrypt 0 0x776F7264 0x74657374) ∧
  decodeTableWord 136 0x30000000000000000F1635F446C8867AC = some (.decrypt 0 0xF1635F44 0x6C8867AC) ∧
  decodeTableWord 136 0x0 = some (.reserved 0) ∧
  (∀ w : Nat, decodeNat w = .error .notACommandWord ↔ 2 ^ 130 ≤ w)

/-- R67, R68 (the assembled forms): bytes and 16-character strings assemble to EXPAND, blocks to ENCRYPT and DECRYPT with
the ignored bits 0, `.op00` to the reserved opcode with data 0; the byte `b<i>` is `cmd_data[8*i+7:8*i]`. R95, its host side: a key of any other length assembles to no command. -/
def Obligations.AssembledWords : Prop :=
  (∀ (w0 w1 : Word), (assemble (.encrypt w0 w1)).map encode = some (cmdWord 0b10#2 (0#64 ++ w1 ++ w0)) ∧
    (assemble (.decrypt w0 w1)).map encode = some (cmdWord 0b11#2 (0#64 ++ w1 ++ w0))) ∧
  (assemble .op00).map encode = some 0#130 ∧
  (∀ bytes : List Byte, bytes.length = 16 → ∃ key : Key, assemble (.expandBytes bytes) = some (.expand key) ∧
    ∀ i : Fin 16, some key[i] = bytes[i.val]?) ∧
  (∀ chars : List Char, chars.length = 16 → (∀ c ∈ chars, c.toNat < 128) →
    assemble (.expandText chars) = assemble (.expandBytes (chars.map asciiByte))) ∧
  (∀ bytes : List Byte, assemble (.expandBytes bytes) = none ↔ bytes.length ≠ 16)

/-! ## The commands at Level T -/

/-- R91, R97: EXPAND completes from every idle state, whatever `keyed` is: the table is ExpandFn of the key, `keyed = 1`,
answer OK without data; scratch as R97 says. Everything else is unchanged: the next state is `st` but for the fields named. -/
def Obligations.ExpandCompletes : Prop :=
  ∀ (key : Key) (st : State), st.phase = .idle →
    exec (.expand key) st = .next { st with
      S := expandFn key, keyed := true, L := (mixFn initTable (packFn key)).L, K := key,
      A := (expandFn key)[25], B := (mixFn initTable (packFn key)).L[1], s := 0, l := 2, cnt := 77#7,
      rsp := some ⟨.ok, none⟩, responses := st.responses ++ [⟨.ok, none⟩] }

/-- R105, R134: ENCRYPT completes from every idle keyed state, for every block and every value of the ignored bits: the answer
is OK with EncFn of the block, scratch `A = c0`, `B = c1`, `cnt = 12`, and everything else is unchanged. Without a key it
is answered NOT_KEYED and nothing is written. -/
def Obligations.EncryptCompletes : Prop :=
  ∀ (ig : BitVec 64) (w1 w0 : Word) (st : State), st.phase = .idle →
    (st.keyed = true → exec (.encrypt ig w1 w0) st = .next { st with
      A := (encFn st.S ⟨w0, w1⟩).w0, B := (encFn st.S ⟨w0, w1⟩).w1, cnt := 12#7,
      rsp := some ⟨.ok, some (encFn st.S ⟨w0, w1⟩)⟩,
      responses := st.responses ++ [⟨.ok, some (encFn st.S ⟨w0, w1⟩)⟩] }) ∧
    (st.keyed = false → exec (.encrypt ig w1 w0) st = .next { st with
      rsp := some ⟨.notKeyed, none⟩, responses := st.responses ++ [⟨.notKeyed, none⟩] })

/-- R111, R134: DECRYPT completes from every idle keyed state: the answer is OK with DecFn of the block; `A`, `B` hold the
values before un-whitening, `cnt = 1`, and everything else is unchanged. Without a key it is answered NOT_KEYED and nothing
is written. -/
def Obligations.DecryptCompletes : Prop :=
  ∀ (ig : BitVec 64) (w1 w0 : Word) (st : State), st.phase = .idle →
    (st.keyed = true → exec (.decrypt ig w1 w0) st = .next { st with
      A := add32 (decFn st.S ⟨w0, w1⟩).w0 st.S[0], B := add32 (decFn st.S ⟨w0, w1⟩).w1 st.S[1], cnt := 1#7,
      rsp := some ⟨.ok, some (decFn st.S ⟨w0, w1⟩)⟩,
      responses := st.responses ++ [⟨.ok, some (decFn st.S ⟨w0, w1⟩)⟩] }) ∧
    (st.keyed = false → exec (.decrypt ig w1 w0) st = .next { st with
      rsp := some ⟨.notKeyed, none⟩, responses := st.responses ++ [⟨.notKeyed, none⟩] })

/-- R136, R140, R133: refusals are precise: a command answered with a status other than OK, at Level T or in its acceptance
micro-step at Level M, carries no data, has no effect on any register, and leaves the core idle. -/
def Obligations.RefusalsArePrecise : Prop :=
  ∀ (i : Instr) (st : State) (r : Response), st.phase = .idle → r.status ≠ .ok →
    (∀ t, exec i st = .next t → t.rsp = some r →
      r.data = none ∧ t = { st with rsp := some r, responses := st.responses ++ [r] }) ∧
    ((st.quietRsp.accept i).rsp = some r →
      r.data = none ∧ st.quietRsp.accept i = { st with rsp := some r, responses := st.responses ++ [r] })

/-- R129, R135: the reserved opcode completes from every idle state with the answer RESERVED_OP and writes nothing at all,
whatever its operand bits. -/
def Obligations.ReservedCompletes : Prop :=
  ∀ (ig : BitVec 128) (st : State), st.phase = .idle →
    exec (.reserved ig) st = .next { st with
      rsp := some ⟨.reservedOp, none⟩, responses := st.responses ++ [⟨.reservedOp, none⟩] }

/-- R64: the outcome of a command does not depend on its ignored bits, at Level T and at Level M. -/
def Obligations.IgnoredBitsHaveNoEffect : Prop :=
  ∀ (st : State) (w1 w0 : Word) (g h : BitVec 64) (x y : BitVec 128),
    exec (.encrypt g w1 w0) st = exec (.encrypt h w1 w0) st ∧ exec (.decrypt g w1 w0) st = exec (.decrypt h w1 w0) st ∧
    exec (.reserved x) st = exec (.reserved y) st ∧ st.accept (.encrypt g w1 w0) = st.accept (.encrypt h w1 w0) ∧
    st.accept (.decrypt g w1 w0) = st.accept (.decrypt h w1 w0) ∧ st.accept (.reserved x) = st.accept (.reserved y)

/-- R16, R31, R47, R136: the frame of the commands that are not EXPAND: no table word, not `keyed`, no key word, no key
byte, no index, no input and no draw changes, and the responses only grow by one. -/
def Obligations.NonExpandFrame : Prop :=
  ∀ (i : Instr) (st t : State), isExpand i = false → exec i st = .next t →
    t.S = st.S ∧ t.keyed = st.keyed ∧ t.L = st.L ∧ t.K = st.K ∧ t.s = st.s ∧ t.l = st.l ∧ t.phase = st.phase ∧
    t.input = st.input ∧ t.draws = st.draws ∧
    (t = st ∨ ∃ r, t.rsp = some r ∧ t.responses = st.responses ++ [r])

/-- R33, R98: re-keying: what EXPAND leaves in `S`, `keyed`, `K` and the scratch does not depend on the state it found. -/
def Obligations.RekeyIndependentOfOldState : Prop :=
  ∀ (key : Key) (a b a' b' : State), a.phase = .idle → b.phase = .idle →
    exec (.expand key) a = .next a' → exec (.expand key) b = .next b' →
    a'.S = b'.S ∧ a'.keyed = b'.keyed ∧ a'.K = b'.K ∧ a'.L = b'.L ∧ a'.A = b'.A ∧ a'.B = b'.B ∧ a'.s = b'.s ∧
    a'.l = b'.l ∧ a'.cnt = b'.cnt

/-- R120: every idle state and every command have exactly the outcome of the Level T step function: next table and `keyed`,
and the response. -/
def Obligations.ExecIsLevelTStep : Prop :=
  ∀ (i : Instr) (st : State), st.phase = .idle →
    ∃ t, exec i st = .next t ∧ t.phase = .idle ∧ t.levelT = (levelTStep st.levelT i).1 ∧
      t.responses = st.responses ++ [(levelTStep st.levelT i).2] ∧ t.rsp = some (levelTStep st.levelT i).2 ∧
      t.input = st.input

/-- R119, R131, R60: any finite sequence of commands runs to its end, one step each, and gives the end state and the
responses of Level T: one response per command, in the order of acceptance. -/
def Obligations.ProgramsRunAsLevelT : Prop :=
  ∀ (is : List Instr) (st : State), st.phase = .idle → st.input = is.map (fun i => .command (encode i)) →
    ∃ t, runSteps is.length st = .next t ∧ t.phase = .idle ∧ t.input = [] ∧
      t.levelT = (levelTRun st.levelT is).1 ∧ t.responses = st.responses ++ (levelTRun st.levelT is).2 ∧
      (levelTRun st.levelT is).2.length = is.length

/-- R112: DecFn undoes EncFn for every table and block; and at command level, with `keyed = 1` and no EXPAND in between (any
other commands may be), ENCRYPT of a block and DECRYPT of its result give the block back. -/
def Obligations.RoundTripThroughTheMachine : Prop :=
  (∀ (S : Table) (x : Block), decFn S (encFn S x) = x) ∧
  (∀ (st : State) (x : Block) (ig ig' : BitVec 64) (is : List Instr), st.phase = .idle → st.keyed = true →
    (∀ i ∈ is, isExpand i = false) →
    ∃ c : Block, (levelTStep st.levelT (.encrypt ig x.w1 x.w0)).2 = ⟨.ok, some c⟩ ∧
      (st.input = ([Instr.encrypt ig x.w1 x.w0] ++ is ++ [Instr.decrypt ig' c.w1 c.w0]).map (fun i => .command (encode i)) →
        ∃ t, runSteps (is.length + 2) st = .next t ∧ t.rsp = some ⟨.ok, some x⟩))

/-- R17: the table belongs to the key of the most recent EXPAND: after any commands with an EXPAND among them and none after
it, `keyed = 1` and `S` is ExpandFn of that key, from every idle state. -/
def Obligations.TableBelongsToLastKey : Prop :=
  ∀ (before after : List Instr) (key : Key) (st : State), st.phase = .idle → (∀ i ∈ after, isExpand i = false) →
    st.input = (before ++ [Instr.expand key] ++ after).map (fun i => .command (encode i)) →
    ∃ t, runSteps (before.length + 1 + after.length) st = .next t ∧ t.phase = .idle ∧ t.keyed = true ∧
      t.S = expandFn key ∧ t.K = key

/-! ## Steps

Where a statement has `rsp := none` it says that the step gives no response. That the port then shows none is the model's
choice (log entry 5). -/

/-- A step at Level T executes the decoded command: with a command first among the host's inputs and the core idle, step is
exec of it, the input taken. So it is in the state withFetchWord gives. The list of inputs and withFetchWord, which sets
`phase` to IDLE, are the model's choice (log entry 3, DESIGN CHOICE); the numbering of decodeTableWord is the model's reading
(log entry 12, DEDUCED). -/
def Obligations.StepRunsDecodedCommand : Prop :=
  (∀ (st : State) (w : CmdWord) (rest : List HostInput), st.phase = .idle → st.input = .command w :: rest →
    step st = exec (decode w) { st with input := rest }) ∧
  (∀ (st : State) (nbits w : Nat) (i : Instr), decodeTableWord nbits w = some i →
    step (st.withFetchWord nbits w) = exec i { st with phase := .idle })

/-- R118, R66, R155: a command presented to a busy core waits: the step takes the running command's next micro-step, exactly
as if nothing were presented, and the command stays the host's next input. In a slot of Level M the same holds, and exec itself has no effect in a busy state (log entry 7). -/
def Obligations.PresentedCommandWaits : Prop :=
  (∀ (i : Instr) (st : State), st.phase ≠ .idle → exec i st = .next st) ∧
  (∀ (st : State) (w : CmdWord) (rest : List HostInput), st.phase ≠ .idle → st.CntInRange →
    st.input = .command w :: rest → ∃ t, step st = .next t ∧ t.input = st.input ∧ st.quietRsp.microStep = .next t) ∧
  (∀ (st : State) (p : Pins), st.phase ≠ .idle → p.rst = false → st.slot p = st.quietRsp.microStep)

/-- R121, R125, R127, R129, R134: the acceptance micro-step of each command, in a slot where it is presented and `rst = 0`.
No response but a refusal's. -/
def Obligations.AcceptanceMicroSteps : Prop :=
  ∀ (st : State) (i : Instr) (rest : List HostInput), st.phase = .idle →
    st.input = .slot (presentPins (encode i)) :: rest →
    match i with
    | .expand key => step st = .next { st with
        K := key, L := #v[0#32, 0#32, 0#32, 0#32], keyed := false, cnt := 15#7, phase := .ksPack, rsp := none, input := rest }
    | .encrypt _ w1 w0 =>
      (st.keyed = true → step st = .next { st with
        A := add32 w0 st.S[0], B := add32 w1 st.S[1], cnt := 1#7, phase := .encRound, rsp := none, input := rest }) ∧
      (st.keyed = false → step st = .next { st with
        rsp := some ⟨.notKeyed, none⟩, responses := st.responses ++ [⟨.notKeyed, none⟩], input := rest })
    | .decrypt _ w1 w0 =>
      (st.keyed = true → step st = .next { st with
        A := w0, B := w1, cnt := 12#7, phase := .decRound, rsp := none, input := rest }) ∧
      (st.keyed = false → step st = .next { st with
        rsp := some ⟨.notKeyed, none⟩, responses := st.responses ++ [⟨.notKeyed, none⟩], input := rest })
    | .reserved _ => step st = .next { st with
        rsp := some ⟨.reservedOp, none⟩, responses := st.responses ++ [⟨.reservedOp, none⟩], input := rest }

/-- R122, R123: the `KS_PACK` and `KS_INIT` micro-steps, with nothing presented. -/
def Obligations.PackAndInitMicroSteps : Prop :=
  (∀ (st : State) (i : Fin 16), st.phase = .ksPack → st.cnt.toNat = i.val → st.input = [] →
    step st = .next { st with
      L := st.L.set (i.val / 4) (add32 (shl32 (st.L[i.val / 4]'(by omega)) 8) (zext32 st.K[i])) (by omega),
      cnt := if i.val = 0 then 0#7 else BitVec.ofNat 7 (i.val - 1),
      phase := if i.val = 0 then .ksInit else .ksPack,
      rsp := none }) ∧
  (∀ (st : State) (i : Fin 26), st.phase = .ksInit → st.cnt.toNat = i.val → st.input = [] →
    ∃ t, step st = .next t ∧ t.S = st.S.set i.val
        (if i.val = 0 then 0xB7E15163#32 else add32 (st.S[i.val - 1]'(by omega)) 0x9E3779B9#32) i.isLt ∧
      (i.val = 25 → t = { st with
        S := t.S, A := 0#32, B := 0#32, s := 0, l := 0, cnt := 0#7, phase := .ksMix, rsp := none }) ∧
      (i.val ≠ 25 → t = { st with S := t.S, cnt := BitVec.ofNat 7 (i.val + 1), rsp := none }))

/-- R124: the `KS_MIX` micro-step, with nothing presented: one MixStep; the last one sets `keyed` and answers OK, and `cnt`
stays 77. -/
def Obligations.MixMicroSteps : Prop :=
  ∀ (st : State) (k : Fin 78) (m : Mix), st.phase = .ksMix → st.cnt.toNat = k.val → st.input = [] →
    m = mixStep ⟨st.S, st.L, st.A, st.B, st.s, st.l⟩ →
    (k.val = 77 → step st = .next { st with
      S := m.S, L := m.L, A := m.A, B := m.B, s := m.s, l := m.l, keyed := true, phase := .idle,
      rsp := some ⟨.ok, none⟩, responses := st.responses ++ [⟨.ok, none⟩] }) ∧
    (k.val ≠ 77 → step st = .next { st with
      S := m.S, L := m.L, A := m.A, B := m.B, s := m.s, l := m.l, cnt := BitVec.ofNat 7 (k.val + 1), rsp := none })

/-- R126, R128: the `ENC_ROUND` and `DEC_ROUND` micro-steps for round `i = r + 1`, with nothing presented; the last ones
answer and leave `cnt` at 12 and 1, `A`, `B` not un-whitened. -/
def Obligations.RoundMicroSteps : Prop :=
  ∀ (st : State) (r : Round) (ab : Block), st.cnt.toNat = r.val + 1 → st.input = [] →
    (st.phase = .encRound → ab = encRound st.S r ⟨st.A, st.B⟩ →
      (r.val = 11 → step st = .next { st with
        A := ab.w0, B := ab.w1, phase := .idle,
        rsp := some ⟨.ok, some ab⟩, responses := st.responses ++ [⟨.ok, some ab⟩] }) ∧
      (r.val ≠ 11 → step st = .next { st with A := ab.w0, B := ab.w1, cnt := BitVec.ofNat 7 (r.val + 2), rsp := none })) ∧
    (st.phase = .decRound → ab = decRound st.S r ⟨st.A, st.B⟩ →
      (r.val = 0 → step st = .next { st with
        A := ab.w0, B := ab.w1, phase := .idle,
        rsp := some ⟨.ok, some ⟨sub32 ab.w0 st.S[0], sub32 ab.w1 st.S[1]⟩⟩,
        responses := st.responses ++ [⟨.ok, some ⟨sub32 ab.w0 st.S[0], sub32 ab.w1 st.S[1]⟩⟩] }) ∧
      (r.val ≠ 0 → step st = .next { st with A := ab.w0, B := ab.w1, cnt := BitVec.ofNat 7 r.val, rsp := none }))

/-! ## Level M refines Level T -/

/-- R130: the micro-steps of an EXPAND, 121 of them, from its acceptance to its response, compute its Level T transition, the
scratch registers included. -/
def Obligations.ExpandMicroStepsRefine : Prop :=
  ∀ (st : State) (key : Key), st.phase = .idle →
    runSteps (microSteps st.keyed (.expand key)) { st with input := [.slot (presentPins (encode (.expand key)))] } =
      exec (.expand key) { st with input := [] }

/-- R130: the 13 micro-steps of a keyed ENCRYPT or DECRYPT, or the one of a refusal or of the reserved opcode, compute the
command's Level T transition. -/
def Obligations.BlockMicroStepsRefine : Prop :=
  ∀ (st : State) (i : Instr), isExpand i = false → st.phase = .idle →
    runSteps (microSteps st.keyed i) { st with input := [.slot (presentPins (encode i))] } =
      exec i { st with input := [] }

/-- R161: a running command always ends: with the host doing nothing, after exactly `remaining` steps, at most 120 after
acceptance, the core is idle and has given exactly one response more, and before that it is busy and has given none. -/
def Obligations.RunningCommandEnds : Prop :=
  ∀ st : State, st.phase ≠ .idle → st.CntInRange → st.input = [] →
    st.remaining ≤ 120 ∧
    (∃ t r, runSteps st.remaining st = .next t ∧ t.phase = .idle ∧ t.responses = st.responses ++ [r]) ∧
    (∀ n, n < st.remaining → ∃ t, runSteps n st = .next t ∧ t.phase ≠ .idle ∧ t.responses = st.responses)

/-! ## Invariants and whole-machine rules -/

/-- Every step keeps the invariant: `cnt` in its phase's range (R23), `keyed` as the phase says (R20), the table ExpandFn of
the latched key while keyed (R17), the progress of a running EXPAND (R130), the response port (R60, R62). -/
def Obligations.StepKeepsInvariant : Prop :=
  ∀ st t : State, st.Inv → step st = .next t → t.Inv

/-- The invariant holds after reset. -/
def Obligations.ResetMeetsInvariant : Prop := State.reset.Inv

/-- R132, R161, R27: from every state with `cnt` in range the step answers a next state, again with `cnt` in range: the
machine never stops, whatever the host does. -/
def Obligations.MachineNeverStops : Prop :=
  ∀ st : State, st.CntInRange → ∃ t, step st = .next t ∧ t.CntInRange

/-- R20: "Nothing else writes it": `keyed` changes only at a reset, at the acceptance of an EXPAND, and at its completion. -/
def Obligations.OnlyExpandAndResetWriteKeyed : Prop :=
  ∀ st t : State, step st = .next t → t.keyed ≠ st.keyed →
    (st.resetNext = true ∧ t.keyed = false) ∨ (∃ key, st.acceptsNext = some (.expand key)) ∨
    (st.phase = .ksMix ∧ st.cnt.toNat = 77 ∧ t.phase = .idle ∧ t.keyed = true)

/-- R16, R19: the table is written only by an EXPAND (at Level T at its acceptance, at Level M in `KS_INIT` and `KS_MIX`), and
the latched key only at the acceptance of an EXPAND; a reset may lose both. -/
def Obligations.OnlyExpandWritesTableAndKey : Prop :=
  ∀ st t : State, step st = .next t → st.resetNext = false →
    (t.S ≠ st.S → (∃ key, st.acceptsNext = some (.expand key)) ∨ st.phase = .ksInit ∨ st.phase = .ksMix) ∧
    (t.K ≠ st.K → ∃ key, st.acceptsNext = some (.expand key) ∧ t.K = key)

/-- R47, R31: while a block command runs, a step without reset changes no table word, not `keyed`, no key word, no key byte
and neither index. -/
def Obligations.BlockRoundsFrame : Prop :=
  ∀ st t : State, (st.phase = .encRound ∨ st.phase = .decRound) → st.resetNext = false → step st = .next t →
    t.S = st.S ∧ t.keyed = st.keyed ∧ t.L = st.L ∧ t.K = st.K ∧ t.s = st.s ∧ t.l = st.l ∧ t.draws = st.draws

/-- R50: while an EXPAND is in progress no command is accepted and `keyed = 0`, so no command can read a partial table: an
invariant's consequence for every state that meets it. -/
def Obligations.PartialTableIsUnreachable : Prop :=
  ∀ st : State, st.Inv → (st.phase = .ksPack ∨ st.phase = .ksInit ∨ st.phase = .ksMix) →
    st.keyed = false ∧ st.acceptsNext = none ∧ st.outPins.cmdReady = false ∧ st.levelT = none

/-- R60's part: responses are only ever appended, at most one a step. The model's choice (log entry 5, DESIGN CHOICE): the
response port shows exactly the one the last step appended, and nothing after a step that appended none; the spec gives no
time for which `rsp_valid` stays at 1. -/
def Obligations.ResponsesOnlyAppended : Prop :=
  ∀ st t : State, step st = .next t →
    (t.rsp = none ∧ t.responses = st.responses) ∨ (∃ r, t.rsp = some r ∧ t.responses = st.responses ++ [r])

/-- R28, R15, R29: scratch is not observable: two idle states that agree on the Level T state, the host's inputs and the
responses show the host the same outputs and responses for ever, at either level and through resets, whatever their `L`,
`K`, `A`, `B`, `s`, `l`, `cnt` and, while unkeyed, `S` hold. -/
def Obligations.ScratchIsNotObservable : Prop :=
  ∀ (a b : State) (n : Nat), SameAtLevelT a b → observed (runSteps n a) = observed (runSteps n b)

/-- R53, R26: the outputs: `busy` is `phase != IDLE`, `cmd_ready` its negation, `keyed` the flag. The last clause is the
model's choice (log entry 5, DESIGN CHOICE): the response port shows the field `rsp`, whatever it holds; R53 gives no time
for which a response stays. -/
def Obligations.StatusOutputs : Prop :=
  ∀ st : State, st.outPins.keyed = st.keyed ∧ (st.outPins.busy = true ↔ st.phase ≠ .idle) ∧
    (st.outPins.cmdReady = true ↔ st.phase = .idle) ∧ (st.outPins.rsp.isSome = true ↔ ∃ r, st.rsp = some r)

/-- R60, R61, R62: the response word: the status in the bits 65:64, never `11`, and, where there is a block, word 0 in the
bits 31:0 and word 1 in the bits 63:32; for every value of the unspecified `rsp_data`. -/
def Obligations.ResponseWordFields : Prop :=
  ∀ (fill : BitVec 64) (s : Status) (w0 w1 : Word),
    (∀ d, (responseWord fill ⟨s, d⟩).extractLsb' 64 2 = statusCode s) ∧ statusCode s ≠ 0b11#2 ∧
    statusCode .ok = 0b00#2 ∧ statusCode .notKeyed = 0b01#2 ∧ statusCode .reservedOp = 0b10#2 ∧
    (responseWord fill ⟨s, some ⟨w0, w1⟩⟩).extractLsb' 0 32 = w0 ∧
    (responseWord fill ⟨s, some ⟨w0, w1⟩⟩).extractLsb' 32 32 = w1
end

