-- ==== Sys2Proof/Laws/BlockTransform.lean ====
section
/-! SUPPORT. One equation per loop step of the block transform, so that a proof by induction over the rounds cites them. -/

namespace Sys2Proof.Machine

theorem encRounds_zero (S : Table) (h : 0 ≤ 12) (ab : Block) : encRounds S 0 h ab = ab := rfl

theorem encRounds_succ (S : Table) (n : Nat) (h : n + 1 ≤ 12) (ab : Block) :
    encRounds S (n + 1) h ab = encRound S ⟨n, h⟩ (encRounds S n (by omega) ab) := rfl

theorem decRounds_zero (S : Table) (h : 0 ≤ 12) (ab : Block) : decRounds S 0 h ab = ab := rfl

theorem decRounds_succ (S : Table) (n : Nat) (h : n + 1 ≤ 12) (ab : Block) :
    decRounds S (n + 1) h ab = decRounds S n (by omega) (decRound S ⟨n, h⟩ ab) := rfl

end Sys2Proof.Machine
end

