-- ==== Sys2Proof/Laws/Datapath.lean ====
section
/-! SUPPORT. What each datapath function is, once, in terms of the library's operations on words. -/

namespace Sys2Proof.Machine

@[simp] theorem add32_eq (x y : Word) : add32 x y = x + y := rfl

@[simp] theorem sub32_eq (x y : Word) : sub32 x y = x - y := rfl

@[simp] theorem xor32_eq (x y : Word) : xor32 x y = x ^^^ y := rfl

theorem rotAmount_lt (n : Word) : rotAmount n < 32 := Nat.mod_lt _ (by decide)

/-- The amount of a rotation is its five low bits (R74). -/
theorem rotAmount_eq (n : Word) : rotAmount n = n.toNat % 32 := rfl

/-- The case split of R74 is the library's left rotation. -/
theorem rotl32_eq_rotateLeft (v n : Word) : rotl32 v n = v.rotateLeft (n.toNat % 32) := by
  have h := rotAmount_lt n
  rw [← rotAmount_eq]
  unfold rotl32 shl32 shr32
  rw [BitVec.rotateLeft_eq_rotateLeftAux_of_lt h]
  split
  · rename_i h0
    simp [h0, BitVec.rotateLeftAux, BitVec.ushiftRight_eq_zero]
  · rfl

/-- The case split of R75 is the library's right rotation. -/
theorem rotr32_eq_rotateRight (v n : Word) : rotr32 v n = v.rotateRight (n.toNat % 32) := by
  have h := rotAmount_lt n
  rw [← rotAmount_eq]
  unfold rotr32 shl32 shr32
  rw [BitVec.rotateRight_eq_rotateRightAux_of_lt h]
  split
  · rename_i h0
    simp [h0, BitVec.rotateRightAux, BitVec.shiftLeft_eq_zero]
  · rfl

end Sys2Proof.Machine
end

