-- ==== Sys2Proof/Laws/Encoding.lean ====
section
/-! SUPPORT. The bits of an assembled word, once: which field each bit of a command word and of an operand belongs to
(30_encoding.md R54, R55, R56). -/

namespace Sys2Proof

theorem cmdWord_getLsbD (op : BitVec 2) (data : BitVec 128) (i : Nat) :
    (cmdWord op data).getLsbD i = if i < 128 then data.getLsbD i else op.getLsbD (i - 128) := by
  have h : (cmdWord op data).getLsbD i = (op ++ data).getLsbD i := rfl
  rw [h, BitVec.getLsbD_append]

theorem cmdOp_cmdWord (op : BitVec 2) (data : BitVec 128) : cmdOp (cmdWord op data) = op := by
  ext i hi
  simp [cmdOp, cmdWord_getLsbD, BitVec.getLsbD_eq_getElem hi]

theorem cmdData_cmdWord (op : BitVec 2) (data : BitVec 128) : cmdData (cmdWord op data) = data := by
  ext i hi
  simp [cmdData, cmdWord_getLsbD, hi]

theorem dataOfBlock_getLsbD (ignored : BitVec 64) (w1 w0 : Word) (i : Nat) :
    (dataOfBlock ignored w1 w0).getLsbD i =
      if i < 32 then w0.getLsbD i else if i < 64 then w1.getLsbD (i - 32) else ignored.getLsbD (i - 64) := by
  have h : (dataOfBlock ignored w1 w0).getLsbD i = (ignored ++ w1 ++ w0).getLsbD i := rfl
  rw [h, BitVec.getLsbD_append, BitVec.getLsbD_append]
  split
  · rfl
  · by_cases h64 : i < 64
    · simp [h64, show i - 32 < 32 by omega]
    · simp [h64, show ¬ i - 32 < 32 by omega, Nat.sub_sub]

theorem append_byte_high {n : Nat} (x : BitVec n) (b : Byte) (i : Nat) (h : 8 ≤ i) :
    (x ++ b).getLsbD i = x.getLsbD (i - 8) := by
  rw [BitVec.getLsbD_append, if_neg (by omega)]

theorem append_byte_low {n : Nat} (x : BitVec n) (b : Byte) (i : Nat) (h : i < 8) :
    (x ++ b).getLsbD i = b.getLsbD i := by
  rw [BitVec.getLsbD_append, if_pos h]

theorem dataOfKey_getLsbD (k : Key) (j : Fin 16) (t : Nat) (ht : t < 8) :
    (dataOfKey k).getLsbD (8 * j.val + t) = k[j].getLsbD t := by
  have h (n : Nat) : (dataOfKey k).getLsbD n =
    (k[15] ++ k[14] ++ k[13] ++ k[12] ++ k[11] ++ k[10] ++ k[9] ++ k[8] ++
     k[7] ++ k[6] ++ k[5] ++ k[4] ++ k[3] ++ k[2] ++ k[1] ++ k[0]).getLsbD n := rfl
  rw [h]
  clear h
  obtain ⟨j, hj⟩ := j
  interval_cases j <;>
    simp (disch := omega) only [append_byte_high, append_byte_low, Fin.getElem_fin] <;>
    exact congrArg _ (by omega)

/-- Key byte `i` of the operand assembled from a key is that key's byte. -/
theorem keyByte_dataOfKey (k : Key) (j : Fin 16) : keyByte (dataOfKey k) j.val = k[j] := by
  ext t ht
  simp only [keyByte, BitVec.getElem_extractLsb']
  rw [dataOfKey_getLsbD k j t ht, BitVec.getLsbD_eq_getElem ht]

end Sys2Proof
end

