-- ==== Sys2Proof/Laws/KeySchedule.lean ====
section
/-! SUPPORT. The small facts of the key schedule that later proofs cite: the trip count, the words of the initial table, and
what one iteration of each loop writes and leaves alone. -/

namespace Sys2Proof.Machine

@[simp] theorem mixIterations_eq : Config.mixIterations = 78 := rfl

theorem mixFn_eq (S : Table) (L : KeyWords) : mixFn S L = mixStep^[78] (mixStart S L) := by
  have h : mixFn S L = mixStep^[Config.mixIterations] (mixStart S L) := by
    unfold mixFn
    exact Eq.refl _
  rw [mixIterations_eq] at h
  exact h

@[simp] theorem initTable_get (i : Fin 26) : initTable[i] = initWord i.val := by simp [initTable]

@[simp] theorem initWord_zero : initWord 0 = Config.magicP := rfl

@[simp] theorem initWord_succ (i : Nat) : initWord (i + 1) = add32 (initWord i) Config.magicQ := rfl

theorem packLoop_zero (key : Key) (h : 0 ≤ 16) (L : KeyWords) : packLoop key 0 h L = L := rfl

theorem packLoop_succ (key : Key) (n : Nat) (h : n + 1 ≤ 16) (L : KeyWords) :
    packLoop key (n + 1) h L = packLoop key n (by omega) (packStep key L ⟨n, h⟩) := rfl

theorem packStep_get_same (key : Key) (L : KeyWords) (i : Fin 16) :
    (packStep key L i)[packIndex i] = add32 (shl32 L[packIndex i] 8) (zext32 key[i]) := by
  simp [packStep]

theorem packStep_get_other (key : Key) (L : KeyWords) (i : Fin 16) (j : Fin 4) (h : packIndex i ≠ j) :
    (packStep key L i)[j] = L[j] := by
  have : (packIndex i).val ≠ j.val := fun e => h (Fin.ext e)
  simp [packStep, this]

@[simp] theorem mixStep_A (m : Mix) : (mixStep m).A = mixA m := rfl

@[simp] theorem mixStep_B (m : Mix) : (mixStep m).B = mixB m (mixA m) := rfl

@[simp] theorem mixStep_s (m : Mix) : (mixStep m).s = nextS m.s := rfl

@[simp] theorem mixStep_l (m : Mix) : (mixStep m).l = nextL m.l := rfl

theorem mixStep_S (m : Mix) : (mixStep m).S = m.S.set m.s (mixA m) := rfl

theorem mixStep_L (m : Mix) : (mixStep m).L = m.L.set m.l (mixB m (mixA m)) := rfl

@[simp] theorem State.getMix_setMix (st : State) (m : Mix) : (st.setMix m).getMix = m := rfl

@[simp] theorem State.setMix_getMix (st : State) : st.setMix st.getMix = st := rfl

end Sys2Proof.Machine
end

