-- ==== Sys2Proof/Laws/State.lean ====
section
/-! SUPPORT. What each named update of the state leaves in each field: one lemma per field per update, true by unfolding,
so that no later proof unfolds a record update. -/

namespace Sys2Proof.Machine

section goto

variable (st : State) (p : Phase) (n : BitVec 7)

@[simp] theorem State.goto_S : (st.goto p n).S = st.S := rfl
@[simp] theorem State.goto_keyed : (st.goto p n).keyed = st.keyed := rfl
@[simp] theorem State.goto_L : (st.goto p n).L = st.L := rfl
@[simp] theorem State.goto_K : (st.goto p n).K = st.K := rfl
@[simp] theorem State.goto_A : (st.goto p n).A = st.A := rfl
@[simp] theorem State.goto_B : (st.goto p n).B = st.B := rfl
@[simp] theorem State.goto_s : (st.goto p n).s = st.s := rfl
@[simp] theorem State.goto_l : (st.goto p n).l = st.l := rfl
@[simp] theorem State.goto_cnt : (st.goto p n).cnt = n := rfl
@[simp] theorem State.goto_phase : (st.goto p n).phase = p := rfl
@[simp] theorem State.goto_input : (st.goto p n).input = st.input := rfl
@[simp] theorem State.goto_rsp : (st.goto p n).rsp = st.rsp := rfl
@[simp] theorem State.goto_responses : (st.goto p n).responses = st.responses := rfl
@[simp] theorem State.goto_draws : (st.goto p n).draws = st.draws := rfl

end goto

section toIdle

variable (st : State)

@[simp] theorem State.toIdle_S : st.toIdle.S = st.S := rfl
@[simp] theorem State.toIdle_keyed : st.toIdle.keyed = st.keyed := rfl
@[simp] theorem State.toIdle_L : st.toIdle.L = st.L := rfl
@[simp] theorem State.toIdle_K : st.toIdle.K = st.K := rfl
@[simp] theorem State.toIdle_A : st.toIdle.A = st.A := rfl
@[simp] theorem State.toIdle_B : st.toIdle.B = st.B := rfl
@[simp] theorem State.toIdle_s : st.toIdle.s = st.s := rfl
@[simp] theorem State.toIdle_l : st.toIdle.l = st.l := rfl
@[simp] theorem State.toIdle_cnt : st.toIdle.cnt = st.cnt := rfl
@[simp] theorem State.toIdle_phase : st.toIdle.phase = .idle := rfl
@[simp] theorem State.toIdle_input : st.toIdle.input = st.input := rfl
@[simp] theorem State.toIdle_rsp : st.toIdle.rsp = st.rsp := rfl
@[simp] theorem State.toIdle_responses : st.toIdle.responses = st.responses := rfl
@[simp] theorem State.toIdle_draws : st.toIdle.draws = st.draws := rfl

end toIdle

section setAB

variable (st : State) (ab : Block)

@[simp] theorem State.setAB_S : (st.setAB ab).S = st.S := rfl
@[simp] theorem State.setAB_keyed : (st.setAB ab).keyed = st.keyed := rfl
@[simp] theorem State.setAB_L : (st.setAB ab).L = st.L := rfl
@[simp] theorem State.setAB_K : (st.setAB ab).K = st.K := rfl
@[simp] theorem State.setAB_A : (st.setAB ab).A = ab.w0 := rfl
@[simp] theorem State.setAB_B : (st.setAB ab).B = ab.w1 := rfl
@[simp] theorem State.setAB_s : (st.setAB ab).s = st.s := rfl
@[simp] theorem State.setAB_l : (st.setAB ab).l = st.l := rfl
@[simp] theorem State.setAB_cnt : (st.setAB ab).cnt = st.cnt := rfl
@[simp] theorem State.setAB_phase : (st.setAB ab).phase = st.phase := rfl
@[simp] theorem State.setAB_input : (st.setAB ab).input = st.input := rfl
@[simp] theorem State.setAB_rsp : (st.setAB ab).rsp = st.rsp := rfl
@[simp] theorem State.setAB_responses : (st.setAB ab).responses = st.responses := rfl
@[simp] theorem State.setAB_draws : (st.setAB ab).draws = st.draws := rfl

end setAB

section latchKey

variable (st : State) (key : Key)

@[simp] theorem State.latchKey_S : (st.latchKey key).S = st.S := rfl
@[simp] theorem State.latchKey_keyed : (st.latchKey key).keyed = st.keyed := rfl
@[simp] theorem State.latchKey_L : (st.latchKey key).L = st.L := rfl
@[simp] theorem State.latchKey_K : (st.latchKey key).K = key := rfl
@[simp] theorem State.latchKey_A : (st.latchKey key).A = st.A := rfl
@[simp] theorem State.latchKey_B : (st.latchKey key).B = st.B := rfl
@[simp] theorem State.latchKey_s : (st.latchKey key).s = st.s := rfl
@[simp] theorem State.latchKey_l : (st.latchKey key).l = st.l := rfl
@[simp] theorem State.latchKey_cnt : (st.latchKey key).cnt = st.cnt := rfl
@[simp] theorem State.latchKey_phase : (st.latchKey key).phase = st.phase := rfl
@[simp] theorem State.latchKey_input : (st.latchKey key).input = st.input := rfl
@[simp] theorem State.latchKey_rsp : (st.latchKey key).rsp = st.rsp := rfl
@[simp] theorem State.latchKey_responses : (st.latchKey key).responses = st.responses := rfl
@[simp] theorem State.latchKey_draws : (st.latchKey key).draws = st.draws := rfl

end latchKey

section setTable

variable (st : State) (T : Table)

@[simp] theorem State.setTable_S : (st.setTable T).S = T := rfl
@[simp] theorem State.setTable_keyed : (st.setTable T).keyed = st.keyed := rfl
@[simp] theorem State.setTable_L : (st.setTable T).L = st.L := rfl
@[simp] theorem State.setTable_K : (st.setTable T).K = st.K := rfl
@[simp] theorem State.setTable_A : (st.setTable T).A = st.A := rfl
@[simp] theorem State.setTable_B : (st.setTable T).B = st.B := rfl
@[simp] theorem State.setTable_s : (st.setTable T).s = st.s := rfl
@[simp] theorem State.setTable_l : (st.setTable T).l = st.l := rfl
@[simp] theorem State.setTable_cnt : (st.setTable T).cnt = st.cnt := rfl
@[simp] theorem State.setTable_phase : (st.setTable T).phase = st.phase := rfl
@[simp] theorem State.setTable_input : (st.setTable T).input = st.input := rfl
@[simp] theorem State.setTable_rsp : (st.setTable T).rsp = st.rsp := rfl
@[simp] theorem State.setTable_responses : (st.setTable T).responses = st.responses := rfl
@[simp] theorem State.setTable_draws : (st.setTable T).draws = st.draws := rfl

end setTable

section setKeyWords

variable (st : State) (W : KeyWords)

@[simp] theorem State.setKeyWords_S : (st.setKeyWords W).S = st.S := rfl
@[simp] theorem State.setKeyWords_keyed : (st.setKeyWords W).keyed = st.keyed := rfl
@[simp] theorem State.setKeyWords_L : (st.setKeyWords W).L = W := rfl
@[simp] theorem State.setKeyWords_K : (st.setKeyWords W).K = st.K := rfl
@[simp] theorem State.setKeyWords_A : (st.setKeyWords W).A = st.A := rfl
@[simp] theorem State.setKeyWords_B : (st.setKeyWords W).B = st.B := rfl
@[simp] theorem State.setKeyWords_s : (st.setKeyWords W).s = st.s := rfl
@[simp] theorem State.setKeyWords_l : (st.setKeyWords W).l = st.l := rfl
@[simp] theorem State.setKeyWords_cnt : (st.setKeyWords W).cnt = st.cnt := rfl
@[simp] theorem State.setKeyWords_phase : (st.setKeyWords W).phase = st.phase := rfl
@[simp] theorem State.setKeyWords_input : (st.setKeyWords W).input = st.input := rfl
@[simp] theorem State.setKeyWords_rsp : (st.setKeyWords W).rsp = st.rsp := rfl
@[simp] theorem State.setKeyWords_responses : (st.setKeyWords W).responses = st.responses := rfl
@[simp] theorem State.setKeyWords_draws : (st.setKeyWords W).draws = st.draws := rfl

end setKeyWords

section quietRsp

variable (st : State)

@[simp] theorem State.quietRsp_S : st.quietRsp.S = st.S := rfl
@[simp] theorem State.quietRsp_keyed : st.quietRsp.keyed = st.keyed := rfl
@[simp] theorem State.quietRsp_L : st.quietRsp.L = st.L := rfl
@[simp] theorem State.quietRsp_K : st.quietRsp.K = st.K := rfl
@[simp] theorem State.quietRsp_A : st.quietRsp.A = st.A := rfl
@[simp] theorem State.quietRsp_B : st.quietRsp.B = st.B := rfl
@[simp] theorem State.quietRsp_s : st.quietRsp.s = st.s := rfl
@[simp] theorem State.quietRsp_l : st.quietRsp.l = st.l := rfl
@[simp] theorem State.quietRsp_cnt : st.quietRsp.cnt = st.cnt := rfl
@[simp] theorem State.quietRsp_phase : st.quietRsp.phase = st.phase := rfl
@[simp] theorem State.quietRsp_input : st.quietRsp.input = st.input := rfl
@[simp] theorem State.quietRsp_rsp : st.quietRsp.rsp = none := rfl
@[simp] theorem State.quietRsp_responses : st.quietRsp.responses = st.responses := rfl
@[simp] theorem State.quietRsp_draws : st.quietRsp.draws = st.draws := rfl

end quietRsp

section respond

variable (st : State) (c : Status) (d : Option Block)

@[simp] theorem State.respond_S : (st.respond c d).S = st.S := rfl
@[simp] theorem State.respond_keyed : (st.respond c d).keyed = st.keyed := rfl
@[simp] theorem State.respond_L : (st.respond c d).L = st.L := rfl
@[simp] theorem State.respond_K : (st.respond c d).K = st.K := rfl
@[simp] theorem State.respond_A : (st.respond c d).A = st.A := rfl
@[simp] theorem State.respond_B : (st.respond c d).B = st.B := rfl
@[simp] theorem State.respond_s : (st.respond c d).s = st.s := rfl
@[simp] theorem State.respond_l : (st.respond c d).l = st.l := rfl
@[simp] theorem State.respond_cnt : (st.respond c d).cnt = st.cnt := rfl
@[simp] theorem State.respond_phase : (st.respond c d).phase = st.phase := rfl
@[simp] theorem State.respond_input : (st.respond c d).input = st.input := rfl
@[simp] theorem State.respond_rsp : (st.respond c d).rsp = some ⟨c, d⟩ := rfl
@[simp] theorem State.respond_responses : (st.respond c d).responses = st.responses ++ [⟨c, d⟩] := rfl
@[simp] theorem State.respond_draws : (st.respond c d).draws = st.draws := rfl

end respond

section refuse

variable (st : State) (c : Status)

@[simp] theorem State.refuse_S : (st.refuse c).S = st.S := rfl
@[simp] theorem State.refuse_keyed : (st.refuse c).keyed = st.keyed := rfl
@[simp] theorem State.refuse_L : (st.refuse c).L = st.L := rfl
@[simp] theorem State.refuse_K : (st.refuse c).K = st.K := rfl
@[simp] theorem State.refuse_A : (st.refuse c).A = st.A := rfl
@[simp] theorem State.refuse_B : (st.refuse c).B = st.B := rfl
@[simp] theorem State.refuse_s : (st.refuse c).s = st.s := rfl
@[simp] theorem State.refuse_l : (st.refuse c).l = st.l := rfl
@[simp] theorem State.refuse_cnt : (st.refuse c).cnt = st.cnt := rfl
@[simp] theorem State.refuse_phase : (st.refuse c).phase = st.phase := rfl
@[simp] theorem State.refuse_input : (st.refuse c).input = st.input := rfl
@[simp] theorem State.refuse_rsp : (st.refuse c).rsp = some ⟨c, none⟩ := rfl
@[simp] theorem State.refuse_responses : (st.refuse c).responses = st.responses ++ [⟨c, none⟩] := rfl
@[simp] theorem State.refuse_draws : (st.refuse c).draws = st.draws := rfl

end refuse

section setKeyed

variable (st : State)

@[simp] theorem State.setKeyed_S : st.setKeyed.S = st.S := rfl
@[simp] theorem State.setKeyed_keyed : st.setKeyed.keyed = true := rfl
@[simp] theorem State.setKeyed_L : st.setKeyed.L = st.L := rfl
@[simp] theorem State.setKeyed_K : st.setKeyed.K = st.K := rfl
@[simp] theorem State.setKeyed_A : st.setKeyed.A = st.A := rfl
@[simp] theorem State.setKeyed_B : st.setKeyed.B = st.B := rfl
@[simp] theorem State.setKeyed_s : st.setKeyed.s = st.s := rfl
@[simp] theorem State.setKeyed_l : st.setKeyed.l = st.l := rfl
@[simp] theorem State.setKeyed_cnt : st.setKeyed.cnt = st.cnt := rfl
@[simp] theorem State.setKeyed_phase : st.setKeyed.phase = st.phase := rfl
@[simp] theorem State.setKeyed_input : st.setKeyed.input = st.input := rfl
@[simp] theorem State.setKeyed_rsp : st.setKeyed.rsp = st.rsp := rfl
@[simp] theorem State.setKeyed_responses : st.setKeyed.responses = st.responses := rfl
@[simp] theorem State.setKeyed_draws : st.setKeyed.draws = st.draws := rfl

end setKeyed

section clearKeyed

variable (st : State)

@[simp] theorem State.clearKeyed_S : st.clearKeyed.S = st.S := rfl
@[simp] theorem State.clearKeyed_keyed : st.clearKeyed.keyed = false := rfl
@[simp] theorem State.clearKeyed_L : st.clearKeyed.L = st.L := rfl
@[simp] theorem State.clearKeyed_K : st.clearKeyed.K = st.K := rfl
@[simp] theorem State.clearKeyed_A : st.clearKeyed.A = st.A := rfl
@[simp] theorem State.clearKeyed_B : st.clearKeyed.B = st.B := rfl
@[simp] theorem State.clearKeyed_s : st.clearKeyed.s = st.s := rfl
@[simp] theorem State.clearKeyed_l : st.clearKeyed.l = st.l := rfl
@[simp] theorem State.clearKeyed_cnt : st.clearKeyed.cnt = st.cnt := rfl
@[simp] theorem State.clearKeyed_phase : st.clearKeyed.phase = st.phase := rfl
@[simp] theorem State.clearKeyed_input : st.clearKeyed.input = st.input := rfl
@[simp] theorem State.clearKeyed_rsp : st.clearKeyed.rsp = st.rsp := rfl
@[simp] theorem State.clearKeyed_responses : st.clearKeyed.responses = st.responses := rfl
@[simp] theorem State.clearKeyed_draws : st.clearKeyed.draws = st.draws := rfl

end clearKeyed

section setMix

variable (st : State) (m : Mix)

@[simp] theorem State.setMix_S : (st.setMix m).S = m.S := rfl
@[simp] theorem State.setMix_keyed : (st.setMix m).keyed = st.keyed := rfl
@[simp] theorem State.setMix_L : (st.setMix m).L = m.L := rfl
@[simp] theorem State.setMix_K : (st.setMix m).K = st.K := rfl
@[simp] theorem State.setMix_A : (st.setMix m).A = m.A := rfl
@[simp] theorem State.setMix_B : (st.setMix m).B = m.B := rfl
@[simp] theorem State.setMix_s : (st.setMix m).s = m.s := rfl
@[simp] theorem State.setMix_l : (st.setMix m).l = m.l := rfl
@[simp] theorem State.setMix_cnt : (st.setMix m).cnt = st.cnt := rfl
@[simp] theorem State.setMix_phase : (st.setMix m).phase = st.phase := rfl
@[simp] theorem State.setMix_input : (st.setMix m).input = st.input := rfl
@[simp] theorem State.setMix_rsp : (st.setMix m).rsp = st.rsp := rfl
@[simp] theorem State.setMix_responses : (st.setMix m).responses = st.responses := rfl
@[simp] theorem State.setMix_draws : (st.setMix m).draws = st.draws := rfl

end setMix

section dropInput

variable (st : State)

@[simp] theorem State.dropInput_S : st.dropInput.S = st.S := rfl
@[simp] theorem State.dropInput_keyed : st.dropInput.keyed = st.keyed := rfl
@[simp] theorem State.dropInput_L : st.dropInput.L = st.L := rfl
@[simp] theorem State.dropInput_K : st.dropInput.K = st.K := rfl
@[simp] theorem State.dropInput_A : st.dropInput.A = st.A := rfl
@[simp] theorem State.dropInput_B : st.dropInput.B = st.B := rfl
@[simp] theorem State.dropInput_s : st.dropInput.s = st.s := rfl
@[simp] theorem State.dropInput_l : st.dropInput.l = st.l := rfl
@[simp] theorem State.dropInput_cnt : st.dropInput.cnt = st.cnt := rfl
@[simp] theorem State.dropInput_phase : st.dropInput.phase = st.phase := rfl
@[simp] theorem State.dropInput_input : st.dropInput.input = st.input.tail := rfl
@[simp] theorem State.dropInput_rsp : st.dropInput.rsp = st.rsp := rfl
@[simp] theorem State.dropInput_responses : st.dropInput.responses = st.responses := rfl
@[simp] theorem State.dropInput_draws : st.dropInput.draws = st.draws := rfl

end dropInput

section present

variable (st : State) (w : CmdWord)

@[simp] theorem State.present_S : (st.present w).S = st.S := rfl
@[simp] theorem State.present_keyed : (st.present w).keyed = st.keyed := rfl
@[simp] theorem State.present_L : (st.present w).L = st.L := rfl
@[simp] theorem State.present_K : (st.present w).K = st.K := rfl
@[simp] theorem State.present_A : (st.present w).A = st.A := rfl
@[simp] theorem State.present_B : (st.present w).B = st.B := rfl
@[simp] theorem State.present_s : (st.present w).s = st.s := rfl
@[simp] theorem State.present_l : (st.present w).l = st.l := rfl
@[simp] theorem State.present_cnt : (st.present w).cnt = st.cnt := rfl
@[simp] theorem State.present_phase : (st.present w).phase = .idle := rfl
@[simp] theorem State.present_input : (st.present w).input = .command w :: st.input := rfl
@[simp] theorem State.present_rsp : (st.present w).rsp = st.rsp := rfl
@[simp] theorem State.present_responses : (st.present w).responses = st.responses := rfl
@[simp] theorem State.present_draws : (st.present w).draws = st.draws := rfl

end present

section resetEvent

variable (st : State)

@[simp] theorem State.resetEvent_S : st.resetEvent.S = Config.resetTable st.draws := rfl
@[simp] theorem State.resetEvent_keyed : st.resetEvent.keyed = false := rfl
@[simp] theorem State.resetEvent_L : st.resetEvent.L = Config.resetKeyWords st.draws := rfl
@[simp] theorem State.resetEvent_K : st.resetEvent.K = Config.resetKey st.draws := rfl
@[simp] theorem State.resetEvent_A : st.resetEvent.A = Config.resetA st.draws := rfl
@[simp] theorem State.resetEvent_B : st.resetEvent.B = Config.resetB st.draws := rfl
@[simp] theorem State.resetEvent_s : st.resetEvent.s = Config.resetS st.draws := rfl
@[simp] theorem State.resetEvent_l : st.resetEvent.l = Config.resetL st.draws := rfl
@[simp] theorem State.resetEvent_cnt : st.resetEvent.cnt = Config.resetCnt st.draws := rfl
@[simp] theorem State.resetEvent_phase : st.resetEvent.phase = .idle := rfl
@[simp] theorem State.resetEvent_input : st.resetEvent.input = st.input := rfl
@[simp] theorem State.resetEvent_rsp : st.resetEvent.rsp = none := rfl
@[simp] theorem State.resetEvent_responses : st.resetEvent.responses = st.responses := rfl
@[simp] theorem State.resetEvent_draws : st.resetEvent.draws = st.draws + 1 := rfl

end resetEvent

end Sys2Proof.Machine
end

