-- ==== Sys2Proof/Laws/Ops.lean ====
section
/-! SUPPORT. What each shared operation can do, once: a proof cites these instead of unfolding the operation. -/

namespace Sys2Proof.Machine

/-! ## Status -/

theorem State.busy_eq_false_iff (st : State) : st.busy = false ↔ st.phase = .idle := by
  unfold State.busy
  cases st.phase <;> decide

@[simp] theorem State.ready_iff (st : State) : st.ready = true ↔ st.phase = .idle := by
  rw [← State.busy_eq_false_iff]
  simp [State.ready]

theorem State.ready_of_idle {st : State} (h : st.phase = .idle) : st.ready = true := by simpa using h

theorem State.not_ready_of_busy {st : State} (h : st.phase ≠ .idle) : ¬ st.ready = true := by simpa using h

/-! ## Acceptance and refusal -/

theorem State.whenReady_idle {st : State} (h : st.phase = .idle) (f : State → StepOutcome) :
    st.whenReady f = f st := by simp [State.whenReady, h]

theorem State.whenReady_busy {st : State} (h : st.phase ≠ .idle) (f : State → StepOutcome) :
    st.whenReady f = .next st := by simp [State.whenReady, h]

theorem State.whenKeyed_keyed {st : State} (h : st.keyed = true) (f : State → StepOutcome) :
    st.whenKeyed f = f st := by simp [State.whenKeyed, h]

theorem State.whenKeyed_unkeyed {st : State} (h : st.keyed = false) (f : State → StepOutcome) :
    st.whenKeyed f = .next (st.refuse .notKeyed) := by simp [State.whenKeyed, h]

/-! ## The meanings: every outcome of each -/

/-- R91: all that EXPAND can answer. -/
theorem execExpand_cases (key : Key) (st : State) :
    (st.phase = .idle ∧ execExpand key st = .next ((st.expandKey key).respond .ok none)) ∨
    (st.phase ≠ .idle ∧ execExpand key st = .next st) := by
  by_cases h : st.phase = .idle
  · exact .inl ⟨h, State.whenReady_idle h _⟩
  · exact .inr ⟨h, State.whenReady_busy h _⟩

/-- R105, R134: all that ENCRYPT can answer. -/
theorem execEncrypt_cases (w1 w0 : Word) (st : State) :
    (st.phase = .idle ∧ st.keyed = true ∧ execEncrypt w1 w0 st = .next (st.encryptBlock (blockOf w1 w0))) ∨
    (st.phase = .idle ∧ st.keyed = false ∧ execEncrypt w1 w0 st = .next (st.refuse .notKeyed)) ∨
    (st.phase ≠ .idle ∧ execEncrypt w1 w0 st = .next st) := by
  unfold execEncrypt
  by_cases h : st.phase = .idle
  · rw [State.whenReady_idle h]
    cases hk : st.keyed
    · exact .inr (.inl ⟨h, rfl, State.whenKeyed_unkeyed hk _⟩)
    · exact .inl ⟨h, rfl, State.whenKeyed_keyed hk _⟩
  · exact .inr (.inr ⟨h, State.whenReady_busy h _⟩)

/-- R111, R134: all that DECRYPT can answer. -/
theorem execDecrypt_cases (w1 w0 : Word) (st : State) :
    (st.phase = .idle ∧ st.keyed = true ∧ execDecrypt w1 w0 st = .next (st.decryptBlock (blockOf w1 w0))) ∨
    (st.phase = .idle ∧ st.keyed = false ∧ execDecrypt w1 w0 st = .next (st.refuse .notKeyed)) ∨
    (st.phase ≠ .idle ∧ execDecrypt w1 w0 st = .next st) := by
  unfold execDecrypt
  by_cases h : st.phase = .idle
  · rw [State.whenReady_idle h]
    cases hk : st.keyed
    · exact .inr (.inl ⟨h, rfl, State.whenKeyed_unkeyed hk _⟩)
    · exact .inl ⟨h, rfl, State.whenKeyed_keyed hk _⟩
  · exact .inr (.inr ⟨h, State.whenReady_busy h _⟩)

/-- R129: all that RESERVED can answer. -/
theorem execReserved_cases (st : State) :
    (st.phase = .idle ∧ execReserved st = .next (st.refuse .reservedOp)) ∨
    (st.phase ≠ .idle ∧ execReserved st = .next st) := by
  by_cases h : st.phase = .idle
  · exact .inl ⟨h, State.whenReady_idle h _⟩
  · exact .inr ⟨h, State.whenReady_busy h _⟩

/-! ## Slots and steps -/

theorem State.slot_reset {st : State} {p : Pins} (h : p.rst = true) : st.slot p = .next st.resetEvent := by
  simp [State.slot, h]

theorem State.slot_accept {st : State} {p : Pins} (hr : p.rst = false) (hv : p.cmdValid = true) (h : st.phase = .idle) :
    st.slot p = .next (st.quietRsp.accept (decode (pinsWord p))) := by simp [State.slot, hr, hv, h]

theorem State.slot_wait {st : State} {p : Pins} (hr : p.rst = false) (hv : p.cmdValid = false) (h : st.phase = .idle) :
    st.slot p = .next st.quietRsp := by simp [State.slot, hr, hv, h]

theorem State.slot_busy {st : State} {p : Pins} (hr : p.rst = false) (h : st.phase ≠ .idle) :
    st.slot p = st.quietRsp.microStep := by simp [State.slot, hr, h]

/-- All that a micro-step of a busy core can answer: one case per phase, and the fault outside the ranges of R23. -/
theorem State.microStep_cases (st : State) :
    (st.phase = .idle ∧ st.microStep = .next st) ∨
    (st.phase = .ksPack ∧ ∃ h : st.cnt.toNat < 16, st.microStep = .next (st.packMicro ⟨st.cnt.toNat, h⟩)) ∨
    (st.phase = .ksInit ∧ ∃ h : st.cnt.toNat < 26, st.microStep = .next (st.initMicro ⟨st.cnt.toNat, h⟩)) ∨
    (st.phase = .ksMix ∧ ∃ h : st.cnt.toNat < 78, st.microStep = .next (st.mixMicro ⟨st.cnt.toNat, h⟩)) ∨
    (st.phase = .encRound ∧ ∃ h : 1 ≤ st.cnt.toNat ∧ st.cnt.toNat ≤ 12,
      st.microStep = .next (st.encMicro ⟨st.cnt.toNat - 1, by omega⟩)) ∨
    (st.phase = .decRound ∧ ∃ h : 1 ≤ st.cnt.toNat ∧ st.cnt.toNat ≤ 12,
      st.microStep = .next (st.decMicro ⟨st.cnt.toNat - 1, by omega⟩)) ∨
    st.microStep = .fault .sequencerOutOfRange := by
  cases hp : st.phase with
  | idle => exact .inl ⟨rfl, by simp [State.microStep, hp]⟩
  | ksPack =>
    by_cases h : st.cnt.toNat < 16
    · exact .inr (.inl ⟨rfl, h, by simp [State.microStep, hp, h]⟩)
    · simp [State.microStep, hp, h]
  | ksInit =>
    by_cases h : st.cnt.toNat < 26
    · exact .inr (.inr (.inl ⟨rfl, h, by simp [State.microStep, hp, h]⟩))
    · simp [State.microStep, hp, h]
  | ksMix =>
    by_cases h : st.cnt.toNat < 78
    · exact .inr (.inr (.inr (.inl ⟨rfl, h, by simp [State.microStep, hp, h]⟩)))
    · simp [State.microStep, hp, h]
  | encRound =>
    by_cases h : 1 ≤ st.cnt.toNat ∧ st.cnt.toNat ≤ 12
    · exact .inr (.inr (.inr (.inr (.inl ⟨rfl, h, by simp [State.microStep, hp, h]⟩))))
    · simp [State.microStep, hp, h]
  | decRound =>
    by_cases h : 1 ≤ st.cnt.toNat ∧ st.cnt.toNat ≤ 12
    · exact .inr (.inr (.inr (.inr (.inr (.inl ⟨rfl, h, by simp [State.microStep, hp, h]⟩)))))
    · simp [State.microStep, hp, h]

theorem step_command_ready {st : State} {w : CmdWord} {rest : List HostInput}
    (h : st.phase = .idle) (hi : st.input = .command w :: rest) : step st = exec (decode w) st.dropInput := by
  simp [step, State.takeInput, hi, h]

theorem step_command_busy {st : State} {w : CmdWord} {rest : List HostInput}
    (h : st.phase ≠ .idle) (hi : st.input = .command w :: rest) : step st = st.slot quietPins := by
  simp [step, State.takeInput, hi, h]

theorem step_slot {st : State} {p : Pins} {rest : List HostInput} (hi : st.input = .slot p :: rest) :
    step st = st.dropInput.slot p := by simp [step, State.takeInput, hi]

theorem step_nothing {st : State} (hi : st.input = []) : step st = st.slot quietPins := by
  simp [step, State.takeInput, hi]

end Sys2Proof.Machine
end

