-- ==== Sys2Proof/Laws/PerInstr.lean ====
section
/-! SUPPORT. Statements about every command as syntax, one lemma per constructor. The family Fields: the opcode and the
operand of a command are the two fields of its word (30_encoding.md R54), and the command is well-formed (R64). -/

namespace Sys2Proof

/-- R54, R64: the fields of a command's word, for one command. -/
def Laws.Fields.Statement (i : Instr) : Prop :=
  i.wellFormed = true ∧ cmdOp (encode i) = opcodeOf i ∧ cmdData (encode i) = operandOf i

theorem Laws.Fields.reserved (ignored : BitVec 128) : Laws.Fields.Statement (.reserved ignored) :=
  ⟨rfl, cmdOp_cmdWord _ _, cmdData_cmdWord _ _⟩

theorem Laws.Fields.expand (key : Key) : Laws.Fields.Statement (.expand key) :=
  ⟨rfl, cmdOp_cmdWord _ _, cmdData_cmdWord _ _⟩

theorem Laws.Fields.encrypt (ignored : BitVec 64) (w1 w0 : Word) : Laws.Fields.Statement (.encrypt ignored w1 w0) :=
  ⟨rfl, cmdOp_cmdWord _ _, cmdData_cmdWord _ _⟩

theorem Laws.Fields.decrypt (ignored : BitVec 64) (w1 w0 : Word) : Laws.Fields.Statement (.decrypt ignored w1 w0) :=
  ⟨rfl, cmdOp_cmdWord _ _, cmdData_cmdWord _ _⟩

end Sys2Proof
end

