-- ==== Sys2Proof/Laws/Step.lean ====
section
/-! SUPPORT. Everything one step can do, once, and what the parts of the invariant say in each phase. -/

namespace Sys2Proof.Machine

/-! ## Acceptance at Level M -/

@[simp] theorem State.accept_reserved (st : State) (ig : BitVec 128) :
    st.accept (.reserved ig) = st.refuse .reservedOp := rfl

@[simp] theorem State.accept_expand (st : State) (key : Key) : st.accept (.expand key) = st.acceptExpand key := rfl

theorem State.accept_encrypt_keyed {st : State} (h : st.keyed = true) (ig : BitVec 64) (w1 w0 : Word) :
    st.accept (.encrypt ig w1 w0) = st.acceptEncrypt (blockOf w1 w0) := by simp [State.accept, h]

theorem State.accept_encrypt_unkeyed {st : State} (h : st.keyed = false) (ig : BitVec 64) (w1 w0 : Word) :
    st.accept (.encrypt ig w1 w0) = st.refuse .notKeyed := by simp [State.accept, h]

theorem State.accept_decrypt_keyed {st : State} (h : st.keyed = true) (ig : BitVec 64) (w1 w0 : Word) :
    st.accept (.decrypt ig w1 w0) = st.acceptDecrypt (blockOf w1 w0) := by simp [State.accept, h]

theorem State.accept_decrypt_unkeyed {st : State} (h : st.keyed = false) (ig : BitVec 64) (w1 w0 : Word) :
    st.accept (.decrypt ig w1 w0) = st.refuse .notKeyed := by simp [State.accept, h]

/-- All that an acceptance micro-step can leave: a refusal, or the first state of a running command. -/
theorem State.accept_cases (st : State) (i : Instr) :
    (st.accept i = st.refuse .reservedOp) ∨ (st.keyed = false ∧ st.accept i = st.refuse .notKeyed) ∨
    (∃ key, i = .expand key ∧ st.accept i = st.acceptExpand key) ∨
    (st.keyed = true ∧ ∃ b, st.accept i = st.acceptEncrypt b) ∨ (st.keyed = true ∧ ∃ b, st.accept i = st.acceptDecrypt b) := by
  cases i with
  | reserved ig => exact .inl rfl
  | expand key => exact .inr (.inr (.inl ⟨key, rfl, rfl⟩))
  | encrypt ig w1 w0 =>
    cases h : st.keyed
    · exact .inr (.inl ⟨rfl, State.accept_encrypt_unkeyed h ig w1 w0⟩)
    · exact .inr (.inr (.inr (.inl ⟨rfl, _, State.accept_encrypt_keyed h ig w1 w0⟩)))
  | decrypt ig w1 w0 =>
    cases h : st.keyed
    · exact .inr (.inl ⟨rfl, State.accept_decrypt_unkeyed h ig w1 w0⟩)
    · exact .inr (.inr (.inr (.inr ⟨rfl, _, State.accept_decrypt_keyed h ig w1 w0⟩)))

/-! ## One step -/

/-- All that a step of an idle core can be, where the host does not assert reset: a command of Level T, executed; a command
of Level M, accepted; or waiting. `inp` is what is left of the host's inputs. -/
theorem step_idle_cases {st : State} (hp : st.phase = .idle) (hn : st.resetNext = false) :
    (∃ w rest, st.input = .command w :: rest ∧ st.acceptsNext = some (decode w) ∧
      step st = exec (decode w) st.dropInput) ∨
    (∃ i, st.acceptsNext = some i ∧ step st = .next (st.dropInput.quietRsp.accept i)) ∨
    (st.acceptsNext = none ∧ ∃ inp, step st = .next { st with input := inp, rsp := none }) := by
  have hr : st.ready = true := State.ready_of_idle hp
  match hi : st.input with
  | [] =>
    refine .inr (.inr ⟨by simp [State.acceptsNext, hr, hi], [], ?_⟩)
    rw [step_nothing hi, State.slot_wait rfl rfl hp]
    simp [State.quietRsp, ← hi]
  | .command w :: rest =>
    exact .inl ⟨w, rest, rfl, by simp [State.acceptsNext, hr, hi], step_command_ready hp hi⟩
  | .slot p :: rest =>
    have hrst : p.rst = false := by simpa [State.resetNext, hi] using hn
    have hp' : st.dropInput.phase = .idle := hp
    rw [step_slot hi]
    cases hv : p.cmdValid
    · refine .inr (.inr ⟨by simp [State.acceptsNext, hr, hi, hrst, hv], rest, ?_⟩)
      rw [State.slot_wait hrst hv hp']
      simp [State.quietRsp, State.dropInput, hi]
    · exact .inr (.inl ⟨_, by simp [State.acceptsNext, hr, hi, hrst, hv], State.slot_accept hrst hv hp'⟩)

/-- All that a step of a busy core can be, where the host does not assert reset: a micro-step of the running command. -/
theorem step_busy_cases {st : State} (hp : st.phase ≠ .idle) (hn : st.resetNext = false) :
    st.acceptsNext = none ∧ ∃ inp, step st = ({ st with input := inp, rsp := none } : State).microStep := by
  have hr : st.ready = false := by
    cases h : st.ready
    · rfl
    · exact absurd h (State.not_ready_of_busy hp)
  refine ⟨by simp [State.acceptsNext, hr], ?_⟩
  match hi : st.input with
  | [] =>
    refine ⟨[], ?_⟩
    rw [step_nothing hi, State.slot_busy rfl hp]
    simp [State.quietRsp, ← hi]
  | .command w :: rest =>
    refine ⟨st.input, ?_⟩
    rw [step_command_busy hp hi, State.slot_busy rfl hp]
    rfl
  | .slot p :: rest =>
    have hrst : p.rst = false := by simpa [State.resetNext, hi] using hn
    refine ⟨rest, ?_⟩
    rw [step_slot hi, State.slot_busy hrst (show st.dropInput.phase ≠ .idle from hp)]
    simp [State.quietRsp, State.dropInput, hi]

/-- R138: reset has priority over everything else a step could be. -/
theorem step_reset {st : State} (h : st.resetNext = true) : step st = .next st.dropInput.resetEvent := by
  match hi : st.input with
  | [] => simp [State.resetNext, hi] at h
  | .command w :: rest => simp [State.resetNext, hi] at h
  | .slot p :: rest =>
    rw [step_slot hi]
    exact State.slot_reset (by simpa [State.resetNext, hi] using h)

/-! ## Runs -/

@[simp] theorem runSteps_zero (st : State) : runSteps 0 st = .next st := rfl

theorem runSteps_succ_next {n : Nat} {st t : State} (h : step st = .next t) : runSteps (n + 1) st = runSteps n t := by
  simp [runSteps, h]

theorem runSteps_add {m n : Nat} {st t : State} (h : runSteps m st = .next t) :
    runSteps (m + n) st = runSteps n t := by
  induction m generalizing st with
  | zero => cases h; simp
  | succ m ih =>
    rw [Nat.succ_add]
    simp only [runSteps] at h ⊢
    cases hs : step st with
    | next u => rw [hs] at h; exact ih h
    | fault f => rw [hs] at h; cases h
    | refused r => rw [hs] at h; cases h

end Sys2Proof.Machine
end

