-- ==== Sys2Proof/Tests/Slice0.lean ====
section
/-! SUPPORT. Small tests. Every expected value is from spec/95_test_vectors.md (V1 to V13, P1 to P5) or is written out from
the encoding tables of spec/30_encoding.md, as each test says. After them, one witness per statement with hypotheses. -/

open Sys2Proof Sys2Proof.Machine

namespace Sys2Proof.Tests

/-! ## States and values the tests use -/

/-- The all-zero key. -/
def zeroKey : Key := Vector.replicate 16 0#8

/-- V5: the ASCII key "0123456789012345". -/
def asciiKey : Key := keyOfData 0x35343332313039383736353433323130#128

/-- V4: the table of the all-zero key. -/
def zeroTable : Table :=
  #v[0x9BBBD8C8, 0x1A37F7FB, 0x46F8E8C5, 0x460C6085, 0x70F83B8A, 0x284B8303, 0x513E1454, 0xF621ED22, 0x3125065D,
     0x11A83A5D, 0xD427686B, 0x713AD82D, 0x4B792F99, 0x2799A4DD, 0xA7901C49, 0xDEDE871A, 0x36C03196, 0xA7EFC249,
     0x61A78BB8, 0x3B0A1D2B, 0x4DBFCA76, 0xAE162167, 0x30D76B0A, 0x43192304, 0xF6CC1431, 0x65046380]

/-- V5: the table of the ASCII key. -/
def asciiTable : Table :=
  #v[0x82FE0C63, 0x41671886, 0x21DC9040, 0x11046BBD, 0x46DFACE6, 0x26CDD875, 0xC0CD8802, 0x3F47D3AC, 0x17D93F9B,
     0xCAB860E7, 0x377D63CD, 0xF219A56D, 0x7A491FF9, 0xE97FBA70, 0x7C4AF342, 0x9C6710A8, 0x4369A4A5, 0xC8EF8D1B,
     0x0115F047, 0xC4D6EAFE, 0x2B723D0F, 0xD40224FE, 0x76AA309F, 0x78E84E3B, 0x8454CCBA, 0xD4ED1152]

/-- An idle core with a table. -/
def keyedWith (T : Table) : State := { State.reset with S := T, keyed := true }

/-- A core in the middle of a command. -/
def busyAt (p : Phase) (n : BitVec 7) : State := { State.reset with phase := p, cnt := n }

/-- The host's next inputs. -/
def withInput (st : State) (inp : List HostInput) : State := { st with input := inp }

/-- The next state of an outcome, for a test that looks at one field of it. -/
def nextField {α : Type} (o : StepOutcome) (f : State → α) : Option α :=
  match o with
  | .next t => some (f t)
  | .fault _ => none
  | .refused _ => none

/-! ## Well-formedness: an ill-formed term for each check -/

theorem test_key_of_15_bytes_refused : keyBytesWellFormed (List.replicate 15 0#8) = false := by decide
theorem test_key_of_17_bytes_refused : keyBytesWellFormed (List.replicate 17 0#8) = false := by decide
theorem test_key_of_16_bytes_accepted : keyBytesWellFormed (List.replicate 16 0#8) = true := by decide
theorem test_short_text_refused : keyTextWellFormed (List.replicate 15 'a') = false := by decide
theorem test_text_beyond_ascii_refused : keyTextWellFormed ('é' :: List.replicate 15 'a') = false := by decide
theorem test_every_command_wellFormed : (Instr.encrypt (-1) 0 0).wellFormed = true := by decide

/-! ## Decoding: words written out bit by bit from R54 to R57 -/

/-- R55, V13: `EXPAND 00 01 ... 0F`; key byte 15 stands highest. -/
theorem test_decode_expand :
    decode 0b0100001111000011100000110100001100000010110000101000001001000010000000011100000110000001010000010000000011000000100000000100000000#130 =
      .expand #v[0x00, 0x01, 0x02, 0x03, 0x04, 0x05, 0x06, 0x07, 0x08, 0x09, 0x0A, 0x0B, 0x0C, 0x0D, 0x0E, 0x0F] := by decide

/-- R56, V13: `ENCRYPT 74657374, 776F7264`; word 0 stands lowest. -/
theorem test_decode_encrypt :
    decode 0b1000000000000000000000000000000000000000000000000000000000000000000111011101101111011100100110010001110100011001010111001101110100#130 =
      .encrypt 0 0x776F7264 0x74657374 := by decide

/-- R56, V13: `DECRYPT 6C8867AC, F1635F44`. -/
theorem test_decode_decrypt :
    decode 0b1100000000000000000000000000000000000000000000000000000000000000001111000101100011010111110100010001101100100010000110011110101100#130 =
      .decrypt 0 0xF1635F44 0x6C8867AC := by decide

/-- R63, V13 row 5: the reserved opcode with data all ones. -/
theorem test_decode_reserved :
    decode 0b0011111111111111111111111111111111111111111111111111111111111111111111111111111111111111111111111111111111111111111111111111111111#130 =
      .reserved (-1) := by decide

/-- V13: the word of `EXPAND 91 5F ... 91`. -/
theorem test_encode_expand :
    encode (.expand #v[0x91, 0x5F, 0x46, 0x19, 0xBE, 0x41, 0xB2, 0x51, 0x63, 0x55, 0xA5, 0x01, 0x10, 0xA9, 0xCE, 0x91]) =
      0x191CEA91001A5556351B241BE19465F91#130 := by decide

/-- R54: a number of 131 bits is no command word. -/
theorem test_too_wide_refused : decodeTableWord 136 0x400000000000000000000000000000000 = none := by decide

/-- R57: a word matches one row. -/
theorem test_matching_row : matchingRows 0x20000000000000000776F726474657374#130 = ["ENCRYPT"] := by decide

/-! ## The datapath, V1 and V2 -/

theorem test_add_wraps : add32 0xFFFFFFFF 1 = 0 := by decide
theorem test_add_magic : add32 0xB7E15163 0x9E3779B9 = 0x5618CB1C := by decide
theorem test_sub_wraps : sub32 0 1 = 0xFFFFFFFF := by decide
theorem test_sub_values : sub32 0x12345678 0x9ABCDEF0 = 0x77777788 := by decide
theorem test_xor_values : xor32 0x12345678 0x9ABCDEF0 = 0x88888888 := by decide
theorem test_rotl_by_32 : rotl32 0x80000001 32 = 0x80000001 := by decide
theorem test_rotl_large_amount : rotl32 0x12345678 0xFFFFFFFF = 0x091A2B3C := by decide
theorem test_rotr_by_4 : rotr32 0x12345678 4 = 0x81234567 := by decide
theorem test_rotr_by_33 : rotr32 0x80000001 33 = 0xC0000000 := by decide

/-! ## The key schedule, V3, V4, V5, V7 -/

theorem test_pack_ascii : packFn asciiKey = #v[0x33323130, 0x37363534, 0x31303938, 0x35343332] := by decide
/-- V7: no sign extension. -/
theorem test_pack_ones : packFn (Vector.replicate 16 0xFF#8) = Vector.replicate 4 0xFFFFFFFF#32 := by decide
theorem test_init_last : initTable[25] = 0x2B4C3474 := by decide
/-- V4, row k = 1, by hand in the spec: A = 68253CE6, amount 9, B = 0D1C9240. -/
theorem test_mix_row_one :
    ((mixStep^[2] (mixStart initTable zeroKeyWords)).A, (mixStep^[2] (mixStart initTable zeroKeyWords)).B) =
      (0x68253CE6#32, 0x0D1C9240#32) := by decide +kernel
/-- V4: the table of the zero key; its trace rotates by 0 at k = 76. -/
theorem test_expand_zero_key : expandFn zeroKey = zeroTable := by decide +kernel
/-- V5: the table of the ASCII key; a big-endian packing or a parallel mixing step gives another (V12). -/
theorem test_expand_ascii_key : expandFn asciiKey = asciiTable := by decide +kernel

/-! ## The block transform, V8, V9, V10 -/

/-- V8(b), the golden vector. -/
theorem test_encrypt_golden : encFn asciiTable ⟨0x74657374, 0x776F7264⟩ = ⟨0x6C8867AC, 0xF1635F44⟩ := by decide +kernel
/-- P2, step 4: the wrong key. -/
theorem test_decrypt_wrong_key : decFn zeroTable ⟨0x6C8867AC, 0xF1635F44⟩ = ⟨0xE63DFED9, 0x5B4C28FD⟩ := by decide +kernel
/-- V8(a), round 1. -/
theorem test_enc_round_one :
    encRound zeroTable 0 ⟨0x9BBBD8C8, 0x1A37F7FB⟩ = ⟨0xE3054A3E, 0xC4590FF6⟩ := by decide
/-- V9(a), round 12. -/
theorem test_dec_round_twelve :
    decRound zeroTable 11 ⟨0xEEDBA521, 0x6D8F4B15⟩ = ⟨0x7481D719, 0x6A9ED6EB⟩ := by decide

/-! ## The commands at Level T, V13 and P1 to P4 -/

/-- V13 row 8. -/
theorem test_exec_expand :
    nextField (exec (.expand zeroKey) State.reset) (fun t => (t.S, t.keyed, t.rsp)) =
      some (zeroTable, true, some ⟨.ok, none⟩) := by decide +kernel
/-- V4, scratch at the end. -/
theorem test_exec_expand_scratch :
    nextField (exec (.expand zeroKey) State.reset) (fun t => (t.L, t.A, t.B, t.s, t.l, t.cnt)) =
      some (#v[0x47A1A366, 0xB1004852, 0x022CF6CF, 0x58525ACF], 0x65046380, 0xB1004852, 0, 2, 77) := by decide +kernel
/-- V13 row 6: ENCRYPT 0, 0 with ignored bits set. -/
theorem test_exec_encrypt :
    nextField (exec (.encrypt 0xDEADBEEF0BADF00D 0 0) (keyedWith zeroTable)) (fun t => (t.rsp, t.cnt)) =
      some (some ⟨.ok, some ⟨0xEEDBA521, 0x6D8F4B15⟩⟩, 12) := by decide +kernel
/-- V13 row 1. -/
theorem test_exec_encrypt_unkeyed :
    nextField (exec (.encrypt 0 0 0) State.reset) (fun t => (t.rsp, t.keyed)) =
      some (some ⟨.notKeyed, none⟩, false) := by decide
/-- P1 step 3: the answer, and the accumulators as V9 row 1 leaves them. -/
theorem test_exec_decrypt :
    nextField (exec (.decrypt 0 0x6D8F4B15 0xEEDBA521) (keyedWith zeroTable)) (fun t => (t.rsp, t.A, t.B, t.cnt)) =
      some (some ⟨.ok, some ⟨0, 0⟩⟩, 0x9BBBD8C8, 0x1A37F7FB, 1) := by decide +kernel
/-- V13 row 2. -/
theorem test_exec_decrypt_unkeyed :
    nextField (exec (.decrypt 0 0x6D8F4B15 0xEEDBA521) State.reset) (fun t => (t.rsp, t.A)) =
      some (some ⟨.notKeyed, none⟩, 0) := by decide
/-- V13 row 4. -/
theorem test_exec_reserved :
    nextField (exec (.reserved 0) (keyedWith zeroTable)) (fun t => (t.rsp, t.keyed, t.S)) =
      some (some ⟨.reservedOp, none⟩, true, zeroTable) := by decide
/-- R118: a busy core accepts nothing. -/
theorem test_exec_busy_waits :
    nextField (exec (.reserved 0) (busyAt .ksMix 3)) (fun t => (t.rsp, t.phase)) = some (none, .ksMix) := by decide

/-! ## Steps: Level T and Level M -/

/-- R120: the next step after withFetchWord executes the command: here the ENCRYPT of V13 on the reset core. -/
theorem test_step_runs_fetched_word :
    nextField (step (State.reset.withFetchWord 136 0x20000000000000000776F726474657374)) (fun t => (t.rsp, t.input)) =
      some (some ⟨.notKeyed, none⟩, []) := by decide
/-- V4 checkpoint 1: the acceptance of EXPAND. -/
theorem test_accept_expand :
    nextField (step (withInput State.reset [.slot (presentPins (encode (.expand zeroKey)))]))
      (fun t => (t.phase, t.cnt, t.keyed, t.rsp)) = some (.ksPack, 15, false, none) := by decide
/-- R125, V8(b) row 0: the whitened block. -/
theorem test_accept_encrypt :
    nextField (step (withInput (keyedWith asciiTable) [.slot (presentPins 0x20000000000000000776F726474657374#130)]))
      (fun t => (t.phase, t.cnt, t.A, t.B)) = some (.encRound, 1, 0xF7637FD7, 0xB8D68AEA) := by decide
/-- V3, i = 14: `L[3] = 00003534` after `L[3] = 00000035`. -/
theorem test_pack_micro :
    nextField (step { busyAt .ksPack 14 with K := asciiKey, L := #v[0, 0, 0, 0x35] }) (fun t => (t.L, t.cnt, t.phase)) =
      some (#v[0, 0, 0, 0x3534], 13, .ksPack) := by decide
/-- R123: the last initialization micro-step. -/
theorem test_init_micro_last :
    nextField (step { busyAt .ksInit 25 with A := 5 }) (fun t => (t.S[25], t.A, t.cnt, t.phase)) =
      some (0x9E3779B9, 0, 0, .ksMix) := by decide
/-- V4 checkpoint 44: row k = 0. -/
theorem test_mix_micro_first :
    nextField (step { busyAt .ksMix 0 with S := initTable }) (fun t => (t.S[0], t.L[0], t.s, t.l, t.cnt)) =
      some (0xBF0A8B1D, 0xB7E15163, 1, 1, 1) := by decide +kernel
/-- R124: the last mixing micro-step answers OK and leaves `cnt` at 77. -/
theorem test_mix_micro_last :
    nextField (step (busyAt .ksMix 77)) (fun t => (t.keyed, t.rsp, t.phase, t.cnt)) =
      some (true, some ⟨.ok, none⟩, .idle, 77) := by decide
/-- R126, V8(a) row 12: the last round answers. -/
theorem test_enc_micro_last :
    nextField (step { busyAt .encRound 12 with S := zeroTable, keyed := true, A := 0x7481D719, B := 0x6A9ED6EB })
      (fun t => (t.rsp, t.phase, t.cnt)) = some (some ⟨.ok, some ⟨0xEEDBA521, 0x6D8F4B15⟩⟩, .idle, 12) := by decide
/-- R128, V9(a): round 1 answers with the un-whitened block and leaves `A` as it was. -/
theorem test_dec_micro_last :
    nextField (step { busyAt .decRound 1 with S := zeroTable, keyed := true, A := 0xE3054A3E, B := 0xC4590FF6 })
      (fun t => (t.rsp, t.A, t.phase)) = some (some ⟨.ok, some ⟨0, 0⟩⟩, 0x9BBBD8C8, .idle) := by decide
/-- R138, P5 step 3: reset beats a presented command and a running EXPAND, and gives no response. -/
theorem test_reset_has_priority :
    nextField (step (withInput { busyAt .ksMix 17 with keyed := false } [.slot ⟨true, true, 2#2, 0⟩]))
      (fun t => (t.phase, t.keyed, t.responses)) = some (.idle, false, []) := by decide
/-- R66: a command presented while busy is held. -/
theorem test_command_held :
    nextField (step (withInput (busyAt .ksMix 3) [.command 0#130])) (fun t => (t.input, t.cnt)) =
      some ([.command 0#130], 4) := by decide
/-- R27: outside its range the sequencer is stuck. -/
theorem test_stuck_out_of_range : step (busyAt .ksPack 16) = .fault .sequencerOutOfRange := by rfl

/-! ## Responses and text -/

/-- V8(b): the response printed as `00:F1635F446C8867AC`. -/
theorem test_response_word :
    responseWord 0 ⟨.ok, some ⟨0x6C8867AC, 0xF1635F44⟩⟩ = 0x0F1635F446C8867AC#66 := by decide
/-- V13 row 3: status `10`. -/
theorem test_refusal_status : (responseWord 7 ⟨.reservedOp, none⟩).extractLsb' 64 2 = 0b10#2 := by decide
/-- R67: `DECRYPT 6c8867ac, F1635F44 ; note`. -/
theorem test_read_decrypt :
    readLine ['D', 'E', 'C', 'R', 'Y', 'P', 'T', ' ', '6', 'c', '8', '8', '6', '7', 'a', 'c', ',', ' ',
      'F', '1', '6', '3', '5', 'F', '4', '4', ' ', ';', ' ', 'n'] = some (.decrypt 0 0xF1635F44 0x6C8867AC) := by decide
/-- 00_scope.md section 5: a digit of either case has the same value; `G` is no digit. -/
theorem test_hex_digit : ['0', '9', 'A', 'f', 'G', ':'].map hexValue = [some 0, some 9, some 10, some 15, none, none] := by decide
/-- R68: `REKEY "0123456789012345"`. -/
theorem test_read_rekey_text :
    readLine ['R', 'E', 'K', 'E', 'Y', ' ', '\x22', '0', '1', '2', '3', '4', '5', '6', '7', '8', '9', '0', '1', '2', '3',
      '4', '5', '\x22'] = some (.expand asciiKey) := by decide
/-- R67, V8: `10:0000000000000000776F726474657374`. -/
theorem test_print_command :
    printCommand (encode (.encrypt 0 0x776F7264 0x74657374)) =
      ['1', '0', ':', '0', '0', '0', '0', '0', '0', '0', '0', '0', '0', '0', '0', '0', '0', '0', '0',
       '7', '7', '6', 'F', '7', '2', '6', '4', '7', '4', '6', '5', '7', '3', '7', '4'] := by decide

end Sys2Proof.Tests
end

