-- ==== Sys2Proof/Tests/Witness.lean ====
section
/-! SUPPORT. For every statement of Certificates/Slice0/Obligations.lean that has hypotheses, concrete values that meet all of
them together; where a statement has several clauses, one witness for each, at a boundary value of its range. -/

open Sys2Proof Sys2Proof.Machine Sys2Proof.Tests

namespace Sys2Proof.Witness

/-! ## Pure functions and encoding -/

theorem resetEventAtAnyMoment :
    (withInput (busyAt .ksMix 17) [.slot resetPins]).input = .slot resetPins :: [] ∧ resetPins.rst = true := by decide

theorem addSubXorValues_and_rotationsMoveBits : 0 < 32 ∧ 31 < 32 := by decide

theorem rotationAmountIsModulo32 : (0xFFFFFFE0#32).toNat % 32 = 0 ∧ (0#32).toNat % 32 = 0 := by decide

theorem mixStepWritesInOrder :
    ∃ a b : Word, a = rotl32 (add32 (add32 (mixStart initTable zeroKeyWords).S[(0 : Fin 26)] 0) 0) 3#32 ∧
      b = rotl32 (add32 (add32 (mixStart initTable zeroKeyWords).L[(0 : Fin 4)] a) 0) (add32 a 0) ∧
      a = 0xBF0A8B1D#32 ∧ b = 0xB7E15163#32 := ⟨_, _, rfl, rfl, by decide, by decide⟩

theorem mixStepWritesInOrder_other_words : (25 : Fin 26) ≠ 0 ∧ (3 : Fin 4) ≠ 0 := by decide

theorem firstIterationKeyIndependent :
    ∃ key m, m = mixStep (mixStart initTable (packFn key)) ∧ key = Vector.replicate 16 0#8 := ⟨_, _, rfl, rfl⟩

theorem roundStatements_encrypt_first_round :
    (0xE3054A3E#32 = add32 (rotl32 (xor32 0x9BBBD8C8 0x1A37F7FB) 0x1A37F7FB) zeroTable[2]) ∧
    (0xC4590FF6#32 = add32 (rotl32 (xor32 0x1A37F7FB 0xE3054A3E) 0xE3054A3E) zeroTable[3]) := by decide

theorem roundStatements_decrypt_last_round :
    (0x6A9ED6EB#32 = xor32 (rotr32 (sub32 0x6D8F4B15 zeroTable[25]) 0xEEDBA521) 0xEEDBA521) ∧
    (0x7481D719#32 = xor32 (rotr32 (sub32 0xEEDBA521 zeroTable[24]) 0x6A9ED6EB) 0x6A9ED6EB) := by decide

theorem decodeInvertsEncode :
    (Instr.expand zeroKey).wellFormed = true ∧ (Instr.reserved (-1)).wellFormed = true ∧
    (Instr.encrypt (-1) (-1) 0).wellFormed = true ∧ (Instr.decrypt 0 0 (-1)).wellFormed = true := by decide

theorem assembledWords : (List.replicate 16 0xFF#8).length = 16 ∧ (List.replicate 16 '~').length = 16 ∧
    (∀ c ∈ List.replicate 16 '~', c.toNat < 128) :=
  ⟨rfl, rfl, fun c h => by rw [List.eq_of_mem_replicate h]; decide⟩

theorem assembledWords_wrong_length : (List.replicate 15 0#8).length ≠ 16 ∧ (List.replicate 17 0#8).length ≠ 16 := by decide

/-! ## Commands -/

theorem commands_idle_unkeyed : State.reset.phase = .idle ∧ State.reset.keyed = false := by decide

theorem commands_idle_keyed : (keyedWith zeroTable).phase = .idle ∧ (keyedWith zeroTable).keyed = true := by decide

/-- A refusal of each kind, at both levels. -/
theorem refusalsArePrecise :
    (∃ t, exec (.encrypt 0 0 0) State.reset = .next t ∧ t.rsp = some ⟨.notKeyed, none⟩) ∧
    (∃ t, exec (.reserved 0) (keyedWith zeroTable) = .next t ∧ t.rsp = some ⟨.reservedOp, none⟩) ∧
    (State.reset.quietRsp.accept (.decrypt 0 0 0)).rsp = some ⟨.notKeyed, none⟩ :=
  ⟨⟨_, rfl, rfl⟩, ⟨_, rfl, rfl⟩, rfl⟩

theorem nonExpandFrame :
    isExpand (.encrypt 0 0 0) = false ∧ isExpand (.decrypt 0 0 0) = false ∧ isExpand (.reserved 0) = false ∧
    (∃ t, exec (.encrypt 0 0 0) (keyedWith zeroTable) = .next t) ∧ (∃ t, exec (.decrypt 0 0 0) State.reset = .next t) ∧
    (∃ t, exec (.reserved 0) (busyAt .encRound 12) = .next t) := ⟨rfl, rfl, rfl, ⟨_, rfl⟩, ⟨_, rfl⟩, ⟨_, rfl⟩⟩

theorem rekeyIndependentOfOldState :
    State.reset.phase = .idle ∧ (keyedWith zeroTable).phase = .idle ∧
    (∃ t, exec (.expand asciiKey) State.reset = .next t) ∧ (∃ t, exec (.expand asciiKey) (keyedWith zeroTable) = .next t) :=
  ⟨rfl, rfl, ⟨_, rfl⟩, ⟨_, rfl⟩⟩

/-- P1's first two commands. -/
theorem programsRunAsLevelT :
    ∃ st : State, st.phase = .idle ∧
      st.input = [Instr.expand zeroKey, Instr.encrypt 0 0 0].map (fun i => .command (encode i)) :=
  ⟨withInput State.reset ([Instr.expand zeroKey, Instr.encrypt 0 0 0].map (fun i => .command (encode i))), rfl, rfl⟩

/-- A reserved command between an ENCRYPT and its DECRYPT (43 R129). -/
theorem roundTripThroughTheMachine :
    ∃ (st : State) (c : Block), st.phase = .idle ∧ st.keyed = true ∧ (∀ i ∈ [Instr.reserved 0], isExpand i = false) ∧
      (levelTStep st.levelT (.encrypt 0 0x776F7264 0x74657374)).2 = ⟨.ok, some c⟩ ∧
      st.input = ([Instr.encrypt 0 0x776F7264 0x74657374] ++ [Instr.reserved 0] ++ [Instr.decrypt 0 c.w1 c.w0]).map
        (fun i => .command (encode i)) :=
  ⟨withInput (keyedWith asciiTable)
      (([Instr.encrypt 0 0x776F7264 0x74657374] ++ [Instr.reserved 0] ++ [Instr.decrypt 0 0xF1635F44 0x6C8867AC]).map
        (fun i => .command (encode i))),
    ⟨0x6C8867AC, 0xF1635F44⟩, rfl, rfl, by decide, by decide +kernel, rfl⟩

theorem tableBelongsToLastKey :
    ∃ st : State, st.phase = .idle ∧ (∀ i ∈ [Instr.encrypt 0 0 0], isExpand i = false) ∧
      st.input = ([Instr.expand asciiKey] ++ [Instr.expand zeroKey] ++ [Instr.encrypt 0 0 0]).map
        (fun i => .command (encode i)) :=
  ⟨withInput State.reset (([Instr.expand asciiKey] ++ [Instr.expand zeroKey] ++ [Instr.encrypt 0 0 0]).map
    (fun i => .command (encode i))), rfl, by decide, rfl⟩

/-! ## Steps -/

theorem stepRunsDecodedCommand :
    (withInput State.reset [.command 0#130]).phase = .idle ∧
    (withInput State.reset [.command 0#130]).input = .command 0#130 :: [] ∧
    decodeTableWord 136 0x0 = some (.reserved 0) ∧ decodeTableWord 130 (2 ^ 130 - 1) = some (.decrypt (-1) (-1) (-1)) := by
  decide

theorem presentedCommandWaits :
    (busyAt .ksMix 77).phase ≠ .idle ∧ (withInput (busyAt .decRound 1) [.command 0#130]).phase ≠ .idle ∧
    (withInput (busyAt .decRound 1) [.command 0#130]).CntInRange ∧
    (withInput (busyAt .decRound 1) [.command 0#130]).input = .command 0#130 :: [] ∧
    (presentPins 0#130).rst = false := by
  refine ⟨by decide, by decide, ?_, rfl, rfl⟩
  show 1 ≤ (1#7).toNat ∧ (1#7).toNat ≤ 12
  decide

/-- One state for each command, and for the block commands a keyed one and one without a key. -/
theorem acceptanceMicroSteps (i : Instr) (st : State) (h : st = State.reset ∨ st = keyedWith zeroTable) :
    (withInput st [.slot (presentPins (encode i))]).phase = .idle ∧
    (withInput st [.slot (presentPins (encode i))]).input = .slot (presentPins (encode i)) :: [] := by
  rcases h with rfl | rfl <;> exact ⟨rfl, rfl⟩

theorem packAndInitMicroSteps :
    ((busyAt .ksPack 0).cnt.toNat = (0 : Fin 16).val ∧ (busyAt .ksPack 15).cnt.toNat = (15 : Fin 16).val) ∧
    ((busyAt .ksInit 0).cnt.toNat = (0 : Fin 26).val ∧ (busyAt .ksInit 25).cnt.toNat = (25 : Fin 26).val) ∧
    (busyAt .ksPack 0).phase = .ksPack ∧ (busyAt .ksInit 25).phase = .ksInit ∧ (busyAt .ksInit 25).input = [] := by decide

theorem mixMicroSteps :
    (busyAt .ksMix 0).cnt.toNat = (0 : Fin 78).val ∧ (busyAt .ksMix 77).cnt.toNat = (77 : Fin 78).val ∧
    (busyAt .ksMix 77).phase = .ksMix ∧ (busyAt .ksMix 77).input = [] := by decide

theorem roundMicroSteps :
    (busyAt .encRound 1).cnt.toNat = (0 : Round).val + 1 ∧ (busyAt .encRound 12).cnt.toNat = (11 : Round).val + 1 ∧
    (busyAt .decRound 1).cnt.toNat = (0 : Round).val + 1 ∧ (busyAt .decRound 12).cnt.toNat = (11 : Round).val + 1 ∧
    (busyAt .encRound 12).phase = .encRound ∧ (busyAt .decRound 1).phase = .decRound ∧ (busyAt .decRound 1).input = [] := by
  decide

theorem expandMicroStepsRefine_and_blockMicroStepsRefine :
    State.reset.phase = .idle ∧ (keyedWith zeroTable).phase = .idle ∧ isExpand (.encrypt 0 0 0) = false := by decide

/-- The longest wait, right after the acceptance of an EXPAND, and the shortest. -/
theorem runningCommandEnds :
    ((busyAt .ksPack 15).phase ≠ .idle ∧ (busyAt .ksPack 15).CntInRange ∧ (busyAt .ksPack 15).input = [] ∧
      119 < (busyAt .ksPack 15).remaining) ∧
    ((busyAt .encRound 12).phase ≠ .idle ∧ (busyAt .encRound 12).CntInRange ∧ 0 < (busyAt .encRound 12).remaining) := by
  refine ⟨⟨by decide, ?_, rfl, by decide⟩, ⟨by decide, ?_, by decide⟩⟩
  · show (15#7).toNat < 16
    decide
  · show 1 ≤ (12#7).toNat ∧ (12#7).toNat ≤ 12
    decide

/-! ## Invariants and whole-machine rules -/

theorem reset_inv : State.reset.Inv where
  cntInRange := trivial
  keyedInPhase := trivial
  tableIsExpanded := fun h => by cases h
  scheduleProgress := trivial
  responsesOk := ⟨fun _ h => (by cases h), fun _ h => (by cases h)⟩

theorem stepKeepsInvariant : State.reset.Inv ∧ ∃ t, step State.reset = .next t := ⟨reset_inv, _, rfl⟩

theorem machineNeverStops : (busyAt .ksMix 77).CntInRange ∧ State.reset.CntInRange :=
  ⟨show (77#7).toNat < 78 by decide, trivial⟩

/-- The three moments at which `keyed` changes. -/
theorem onlyExpandAndResetWriteKeyed :
    (∃ t, step (withInput (keyedWith zeroTable) [.slot resetPins]) = .next t ∧ t.keyed ≠ (keyedWith zeroTable).keyed) ∧
    (∃ t, step (withInput (keyedWith zeroTable) [.slot (presentPins (encode (.expand zeroKey)))]) = .next t ∧
      t.keyed ≠ (keyedWith zeroTable).keyed) ∧
    (∃ t, step (busyAt .ksMix 77) = .next t ∧ t.keyed ≠ (busyAt .ksMix 77).keyed) :=
  ⟨⟨_, rfl, by decide⟩, ⟨_, rfl, by decide⟩, ⟨_, rfl, by decide⟩⟩

/-- A step that changes the table and a step that latches a key. -/
theorem onlyExpandWritesTableAndKey :
    (∃ t, step (busyAt .ksInit 0) = .next t ∧ (busyAt .ksInit 0).resetNext = false ∧ t.S ≠ (busyAt .ksInit 0).S) ∧
    (∃ t, step (withInput State.reset [.slot (presentPins (encode (.expand asciiKey)))]) = .next t ∧
      (withInput State.reset [.slot (presentPins (encode (.expand asciiKey)))]).resetNext = false ∧ t.K ≠ State.reset.K) :=
  ⟨⟨_, rfl, rfl, by decide⟩, ⟨_, rfl, rfl, by decide⟩⟩

theorem blockRoundsFrame :
    (∃ t, step (busyAt .encRound 12) = .next t) ∧ (busyAt .encRound 12).phase = .encRound ∧
    (∃ t, step (busyAt .decRound 1) = .next t) ∧ (busyAt .decRound 1).phase = .decRound ∧
    (busyAt .encRound 12).resetNext = false ∧ (busyAt .decRound 1).resetNext = false :=
  ⟨⟨_, rfl⟩, rfl, ⟨_, rfl⟩, rfl, rfl, rfl⟩

/-- Right after the acceptance of an EXPAND of the zero key. -/
theorem partialTableIsUnreachable :
    (State.reset.acceptExpand zeroKey).Inv ∧ (State.reset.acceptExpand zeroKey).phase = .ksPack where
  left := {
    cntInRange := show (15#7).toNat < 16 by decide
    keyedInPhase := rfl
    tableIsExpanded := fun h => by cases h
    scheduleProgress := fun _ => rfl
    responsesOk := ⟨fun _ h => (by cases h), fun _ h => (by cases h)⟩ }
  right := rfl

theorem responsesOnlyAppended :
    (∃ t, step State.reset = .next t) ∧ (∃ t, step (withInput State.reset [.command 0#130]) = .next t) :=
  ⟨⟨_, rfl⟩, ⟨_, rfl⟩⟩

/-- Two unkeyed idle states that differ in the table and in scratch, and two keyed ones that differ in scratch. -/
theorem scratchIsNotObservable :
    SameAtLevelT State.reset { State.reset with S := zeroTable, A := 7, cnt := 77, draws := 3 } ∧
    SameAtLevelT (keyedWith zeroTable) { keyedWith zeroTable with K := asciiKey, B := 9, s := 5 } :=
  ⟨⟨rfl, rfl, rfl, rfl, rfl, rfl⟩, ⟨rfl, rfl, rfl, rfl, rfl, rfl⟩⟩

end Sys2Proof.Witness
end

