-- ==== Sys2Proof/Proofs/Scope.lean ====
section
/-! PROOFS. The statements of 00_scope.md: the derived parameters (R7). -/

namespace Sys2Proof.Machine

/-- R7: `2*(12+1) = 26`, the literal beside its formula. -/
theorem expandedKeySize_eq : Config.expandedKeySize = 26 := rfl

/-- R7: `16/4 = 4`, the literal beside its formula. -/
theorem keyWords_eq : Config.keyWords = 4 := rfl

/-- R7 divides the key bytes by 4; the model divides them by the bytes of a word. -/
theorem keyWords_eq_keyBytes_div : Config.keyWords = Config.keyBytes / 4 := rfl

/-- Settles O1: three literals, then the formulas, which are the model's definitions. -/
theorem derivedCountsConsistent : Obligations.DerivedCountsConsistent :=
  ⟨expandedKeySize_eq, mixIterations_eq, keyWords_eq, rfl, rfl, keyWords_eq_keyBytes_div⟩

end Sys2Proof.Machine
end

