-- ==== Sys2Proof/Proofs/State.lean ====
section
/-! PROOFS. The statements of 10_state.md: what a step can do, the invariant of the machine and its parts (R16, R17, R19,
R20, R23 to R25, R27), re-keying (R33) and what the host cannot see (R28 to R30). -/

namespace Sys2Proof

/-! ## Decoding the word of a command -/

theorem keyOfData_get (data : BitVec 128) (i : Fin 16) : (keyOfData data)[i] = keyByte data i.val := by
  fin_cases i <;> rfl

theorem keyOfData_dataOfKey (k : Key) : keyOfData (dataOfKey k) = k :=
  Vector.ext fun i hi => (keyOfData_get _ ⟨i, hi⟩).trans (keyByte_dataOfKey k ⟨i, hi⟩)

theorem blockWord0_dataOfBlock (ig : BitVec 64) (w1 w0 : Word) : blockWord0 (dataOfBlock ig w1 w0) = w0 := by
  ext t ht
  simp [blockWord0, dataOfBlock_getLsbD, ht, BitVec.getLsbD_eq_getElem]

theorem blockWord1_dataOfBlock (ig : BitVec 64) (w1 w0 : Word) : blockWord1 (dataOfBlock ig w1 w0) = w1 := by
  ext t ht
  simp [blockWord1, dataOfBlock_getLsbD, BitVec.getLsbD_eq_getElem ht, show 32 + t < 64 by omega]

theorem blockIgnored_dataOfBlock (ig : BitVec 64) (w1 w0 : Word) : blockIgnored (dataOfBlock ig w1 w0) = ig := by
  ext t ht
  simp [blockIgnored, dataOfBlock_getLsbD, BitVec.getLsbD_eq_getElem ht, show ¬ 64 + t < 32 by omega]

/-- R54 to R57: the word of a command decodes to that command. -/
theorem decode_encode (i : Instr) : decode (encode i) = i := by
  unfold decode encode
  rw [cmdOp_cmdWord, cmdData_cmdWord]
  cases i with
  | reserved ignored => rfl
  | expand key => exact congrArg Instr.expand (keyOfData_dataOfKey key)
  | encrypt ignored w1 w0 =>
    simp [decodeParts, opcodeOf, operandOf, blockIgnored_dataOfBlock, blockWord1_dataOfBlock, blockWord0_dataOfBlock]
  | decrypt ignored w1 w0 =>
    simp [decodeParts, opcodeOf, operandOf, blockIgnored_dataOfBlock, blockWord1_dataOfBlock, blockWord0_dataOfBlock]

end Sys2Proof

namespace Sys2Proof.Machine

/-! ## The commands at Level T -/

/-- R118: a presented command has no effect on a busy core. -/
theorem exec_busy {st : State} (h : st.phase ≠ .idle) (i : Instr) : exec i st = .next st := by
  cases i <;> simp [exec, execReserved, execExpand, execEncrypt, execDecrypt, State.whenReady_busy h]

/-- All that a command can do to an idle core: a refusal, an expansion, or the block transform of a keyed core. -/
theorem exec_idle_cases {st : State} (h : st.phase = .idle) (i : Instr) :
    (isExpand i = false ∧ ∃ c, exec i st = .next (st.refuse c)) ∨
    (∃ key, i = .expand key ∧ exec i st = .next ((st.expandKey key).respond .ok none)) ∨
    (isExpand i = false ∧ st.keyed = true ∧ ∃ b, exec i st = .next (st.encryptBlock b)) ∨
    (isExpand i = false ∧ st.keyed = true ∧ ∃ b, exec i st = .next (st.decryptBlock b)) := by
  cases i with
  | reserved ig =>
    obtain ⟨-, he⟩ | ⟨hb, -⟩ := execReserved_cases st
    · exact .inl ⟨rfl, _, he⟩
    · exact absurd h hb
  | expand key =>
    obtain ⟨-, he⟩ | ⟨hb, -⟩ := execExpand_cases key st
    · exact .inr (.inl ⟨key, rfl, he⟩)
    · exact absurd h hb
  | encrypt ig w1 w0 =>
    obtain ⟨-, hk, he⟩ | ⟨-, -, he⟩ | ⟨hb, -⟩ := execEncrypt_cases w1 w0 st
    · exact .inr (.inr (.inl ⟨rfl, hk, _, he⟩))
    · exact .inl ⟨rfl, _, he⟩
    · exact absurd h hb
  | decrypt ig w1 w0 =>
    obtain ⟨-, hk, he⟩ | ⟨-, -, he⟩ | ⟨hb, -⟩ := execDecrypt_cases w1 w0 st
    · exact .inr (.inr (.inr ⟨rfl, hk, _, he⟩))
    · exact .inl ⟨rfl, _, he⟩
    · exact absurd h hb

/-- An idle core completes every command at Level T: it is idle again, and the host's inputs are untouched. -/
theorem exec_idle_next {st : State} (h : st.phase = .idle) (i : Instr) :
    ∃ t, exec i st = .next t ∧ t.phase = .idle ∧ t.input = st.input := by
  obtain ⟨-, c, he⟩ | ⟨key, -, he⟩ | ⟨-, -, b, he⟩ | ⟨-, -, b, he⟩ := exec_idle_cases h i
  · exact ⟨_, he, h, rfl⟩
  all_goals exact ⟨_, he, rfl, rfl⟩

/-! ## The micro-steps of a running command: an equation per case -/

theorem State.packMicro_last (st : State) {i : Fin 16} (h : i.val = 0) :
    st.packMicro i = (st.setKeyWords (packStep st.K st.L i)).goto .ksInit 0#7 := if_pos h

theorem State.packMicro_more (st : State) {i : Fin 16} (h : i.val ≠ 0) :
    st.packMicro i = (st.setKeyWords (packStep st.K st.L i)).goto .ksPack (BitVec.ofNat 7 (i.val - 1)) := if_neg h

theorem State.initMicro_last (st : State) {i : Fin 26} (h : i.val = 25) :
    st.initMicro i =
      ((st.setTable (initStep st.S i)).setMix (mixStart (initStep st.S i) st.L)).goto .ksMix 0#7 := if_pos h

theorem State.initMicro_more (st : State) {i : Fin 26} (h : i.val ≠ 25) :
    st.initMicro i = (st.setTable (initStep st.S i)).goto .ksInit (BitVec.ofNat 7 (i.val + 1)) := if_neg h

theorem State.mixMicro_last (st : State) {k : Fin 78} (h : k.val = 77) :
    st.mixMicro k = ((st.setMix (mixStep st.getMix)).setKeyed.respond .ok none).toIdle := if_pos h

theorem State.mixMicro_more (st : State) {k : Fin 78} (h : k.val ≠ 77) :
    st.mixMicro k = (st.setMix (mixStep st.getMix)).goto .ksMix (BitVec.ofNat 7 (k.val + 1)) := if_neg h

theorem State.encMicro_last (st : State) {r : Round} (h : r.val = 11) :
    st.encMicro r = ((st.setAB (encRound st.S r st.getAB)).respond .ok (some (encRound st.S r st.getAB))).toIdle :=
  if_pos h

theorem State.encMicro_more (st : State) {r : Round} (h : r.val ≠ 11) :
    st.encMicro r = (st.setAB (encRound st.S r st.getAB)).goto .encRound (BitVec.ofNat 7 (r.val + 2)) := if_neg h

theorem State.decMicro_last (st : State) {r : Round} (h : r.val = 0) :
    st.decMicro r = ((st.setAB (decRound st.S r st.getAB)).respond .ok
      (some (decUnwhiten st.S (decRound st.S r st.getAB)))).toIdle := if_pos h

theorem State.decMicro_more (st : State) {r : Round} (h : r.val ≠ 0) :
    st.decMicro r = (st.setAB (decRound st.S r st.getAB)).goto .decRound (BitVec.ofNat 7 r.val) := if_neg h

section microStep

variable {st : State}

theorem State.microStep_idle (hp : st.phase = .idle) : st.microStep = .next st := by
  simp [State.microStep, hp]

theorem State.microStep_ksPack (hp : st.phase = .ksPack) (i : Fin 16) (hi : st.cnt.toNat = i.val) :
    st.microStep = .next (st.packMicro i) := by
  simp [State.microStep, hp, hi]

theorem State.microStep_ksInit (hp : st.phase = .ksInit) (i : Fin 26) (hi : st.cnt.toNat = i.val) :
    st.microStep = .next (st.initMicro i) := by
  simp [State.microStep, hp, hi]

theorem State.microStep_ksMix (hp : st.phase = .ksMix) (k : Fin 78) (hk : st.cnt.toNat = k.val) :
    st.microStep = .next (st.mixMicro k) := by
  simp [State.microStep, hp, hk]

theorem State.microStep_encRound (hp : st.phase = .encRound) (r : Round) (hr : st.cnt.toNat = r.val + 1) :
    st.microStep = .next (st.encMicro r) := by
  simp [State.microStep, hp, hr, show r.val + 1 ≤ 12 from r.isLt]

theorem State.microStep_decRound (hp : st.phase = .decRound) (r : Round) (hr : st.cnt.toNat = r.val + 1) :
    st.microStep = .next (st.decMicro r) := by
  simp [State.microStep, hp, hr, show r.val + 1 ≤ 12 from r.isLt]

end microStep

/-! ## One step: everything it can do, as one inductive relation -/

/-- The state as a step works on it: what is left of the host's inputs, and what the response port shows. -/
def State.withPorts (st : State) (inp : List HostInput) (r : Option Response) : State :=
  { st with input := inp, rsp := r }

/-- Everything one step can do to `st`, one constructor per effect of Machine/Ops.lean, Machine/KeySchedule.lean,
Machine/BlockTransform.lean and Machine/Sequencer.lean. `stepEffect_of_step` ties it to `step`. -/
inductive StepEffect (st : State) : State → Prop
  | reset (hn : st.resetNext = true) : StepEffect st st.dropInput.resetEvent
  | wait (inp : List HostInput) (hp : st.phase = .idle) : StepEffect st (st.withPorts inp none)
  | refuse (inp : List HostInput) (r : Option Response) (c : Status) (hp : st.phase = .idle) :
      StepEffect st ((st.withPorts inp r).refuse c)
  | expand (inp : List HostInput) (r : Option Response) (key : Key) (ha : st.acceptsNext = some (.expand key)) :
      StepEffect st (((st.withPorts inp r).expandKey key).respond .ok none)
  | encrypt (inp : List HostInput) (r : Option Response) (b : Block) (hk : st.keyed = true) :
      StepEffect st ((st.withPorts inp r).encryptBlock b)
  | decrypt (inp : List HostInput) (r : Option Response) (b : Block) (hk : st.keyed = true) :
      StepEffect st ((st.withPorts inp r).decryptBlock b)
  | acceptExpand (inp : List HostInput) (key : Key) (ha : st.acceptsNext = some (.expand key)) :
      StepEffect st ((st.withPorts inp none).acceptExpand key)
  | acceptEncrypt (inp : List HostInput) (b : Block) (hk : st.keyed = true) :
      StepEffect st ((st.withPorts inp none).acceptEncrypt b)
  | acceptDecrypt (inp : List HostInput) (b : Block) (hk : st.keyed = true) :
      StepEffect st ((st.withPorts inp none).acceptDecrypt b)
  | pack (inp : List HostInput) (i : Fin 16) (hp : st.phase = .ksPack) (hi : st.cnt.toNat = i.val) :
      StepEffect st ((st.withPorts inp none).packMicro i)
  | init (inp : List HostInput) (i : Fin 26) (hp : st.phase = .ksInit) (hi : st.cnt.toNat = i.val) :
      StepEffect st ((st.withPorts inp none).initMicro i)
  | mix (inp : List HostInput) (k : Fin 78) (hp : st.phase = .ksMix) (hk : st.cnt.toNat = k.val) :
      StepEffect st ((st.withPorts inp none).mixMicro k)
  | encRound (inp : List HostInput) (r : Round) (hp : st.phase = .encRound) (hr : st.cnt.toNat = r.val + 1) :
      StepEffect st ((st.withPorts inp none).encMicro r)
  | decRound (inp : List HostInput) (r : Round) (hp : st.phase = .decRound) (hr : st.cnt.toNat = r.val + 1) :
      StepEffect st ((st.withPorts inp none).decMicro r)

/-- What a command of Level T does in a step. -/
theorem stepEffect_of_exec {st t : State} {i : Instr} {inp : List HostInput} {r : Option Response}
    (hp : st.phase = .idle) (ha : st.acceptsNext = some i) (h : exec i (st.withPorts inp r) = .next t) :
    StepEffect st t := by
  have hp' : (st.withPorts inp r).phase = .idle := hp
  obtain ⟨-, c, he⟩ | ⟨key, rfl, he⟩ | ⟨-, hk, b, he⟩ | ⟨-, hk, b, he⟩ := exec_idle_cases hp' i <;>
    obtain rfl := Host.Outcome.next.inj (he.symm.trans h)
  · exact .refuse inp r c hp
  · exact .expand inp r key ha
  · exact .encrypt inp r b hk
  · exact .decrypt inp r b hk

/-- What the acceptance micro-step of a command does in a step. -/
theorem stepEffect_of_accept {st : State} {i : Instr} (inp : List HostInput)
    (hp : st.phase = .idle) (ha : st.acceptsNext = some i) : StepEffect st ((st.withPorts inp none).accept i) := by
  obtain he | ⟨-, he⟩ | ⟨key, rfl, he⟩ | ⟨hk, b, he⟩ | ⟨hk, b, he⟩ := (st.withPorts inp none).accept_cases i <;>
    rw [he]
  · exact .refuse inp none _ hp
  · exact .refuse inp none _ hp
  · exact .acceptExpand inp key ha
  · exact .acceptEncrypt inp b hk
  · exact .acceptDecrypt inp b hk

/-- What a micro-step of a running command does in a step. -/
theorem stepEffect_of_microStep {st t : State} {inp : List HostInput} (hp : st.phase ≠ .idle)
    (h : (st.withPorts inp none).microStep = .next t) : StepEffect st t := by
  obtain ⟨hi, -⟩ | ⟨hp', hc, he⟩ | ⟨hp', hc, he⟩ | ⟨hp', hc, he⟩ | ⟨hp', hc, he⟩ | ⟨hp', hc, he⟩ | he :=
    (st.withPorts inp none).microStep_cases
  · exact absurd hi hp
  · obtain rfl := Host.Outcome.next.inj (he.symm.trans h)
    exact .pack inp _ hp' rfl
  · obtain rfl := Host.Outcome.next.inj (he.symm.trans h)
    exact .init inp _ hp' rfl
  · obtain rfl := Host.Outcome.next.inj (he.symm.trans h)
    exact .mix inp _ hp' rfl
  · obtain rfl := Host.Outcome.next.inj (he.symm.trans h)
    exact .encRound inp _ hp' (Nat.sub_add_cancel hc.1).symm
  · obtain rfl := Host.Outcome.next.inj (he.symm.trans h)
    exact .decRound inp _ hp' (Nat.sub_add_cancel hc.1).symm
  · cases he.symm.trans h

/-- The inversion lemma of `step`: every step has one of the effects. -/
theorem stepEffect_of_step {st t : State} (h : step st = .next t) : StepEffect st t := by
  cases hn : st.resetNext with
  | true =>
    obtain rfl := Host.Outcome.next.inj ((step_reset hn).symm.trans h)
    exact .reset hn
  | false =>
    by_cases hp : st.phase = .idle
    · obtain ⟨w, rest, -, ha, he⟩ | ⟨i, ha, he⟩ | ⟨-, inp, he⟩ := step_idle_cases hp hn
      · exact stepEffect_of_exec (inp := st.input.tail) (r := st.rsp) hp ha (he.symm.trans h)
      · obtain rfl := Host.Outcome.next.inj (he.symm.trans h)
        exact stepEffect_of_accept st.input.tail hp ha
      · obtain rfl := Host.Outcome.next.inj (he.symm.trans h)
        exact .wait inp hp
    · obtain ⟨-, inp, he⟩ := step_busy_cases hp hn
      exact stepEffect_of_microStep hp (he.symm.trans h)

/-! ## R23, R27: the counter stays in its phase's range -/

theorem State.packMicro_cntInRange (st : State) (i : Fin 16) : (st.packMicro i).CntInRange := by
  by_cases h : i.val = 0
  · rw [State.packMicro_last st h]
    exact show (0#7).toNat < 26 by decide
  · rw [State.packMicro_more st h]
    show (BitVec.ofNat 7 (i.val - 1)).toNat < 16
    simp only [BitVec.toNat_ofNat]
    omega

theorem State.initMicro_cntInRange (st : State) (i : Fin 26) : (st.initMicro i).CntInRange := by
  by_cases h : i.val = 25
  · rw [State.initMicro_last st h]
    exact show (0#7).toNat < 78 by decide
  · rw [State.initMicro_more st h]
    show (BitVec.ofNat 7 (i.val + 1)).toNat < 26
    simp only [BitVec.toNat_ofNat]
    omega

theorem State.mixMicro_cntInRange (st : State) (k : Fin 78) : (st.mixMicro k).CntInRange := by
  by_cases h : k.val = 77
  · rw [State.mixMicro_last st h]
    trivial
  · rw [State.mixMicro_more st h]
    show (BitVec.ofNat 7 (k.val + 1)).toNat < 78
    simp only [BitVec.toNat_ofNat]
    omega

theorem State.encMicro_cntInRange (st : State) (r : Round) : (st.encMicro r).CntInRange := by
  by_cases h : r.val = 11
  · rw [State.encMicro_last st h]
    trivial
  · rw [State.encMicro_more st h]
    show 1 ≤ (BitVec.ofNat 7 (r.val + 2)).toNat ∧ (BitVec.ofNat 7 (r.val + 2)).toNat ≤ 12
    simp only [BitVec.toNat_ofNat]
    omega

theorem State.decMicro_cntInRange (st : State) (r : Round) : (st.decMicro r).CntInRange := by
  by_cases h : r.val = 0
  · rw [State.decMicro_last st h]
    trivial
  · rw [State.decMicro_more st h]
    show 1 ≤ (BitVec.ofNat 7 r.val).toNat ∧ (BitVec.ofNat 7 r.val).toNat ≤ 12
    simp only [BitVec.toNat_ofNat]
    omega

theorem State.cntInRange_of_idle {st : State} (h : st.phase = .idle) : st.CntInRange := by
  simp [State.CntInRange, h]

/-- R23: a step only ever leaves `cnt` in its phase's range, whatever it was before. -/
theorem step_cntInRange {st t : State} (h : step st = .next t) : t.CntInRange := by
  cases stepEffect_of_step h with
  | reset | expand | encrypt | decrypt => trivial
  | wait inp hp => exact State.cntInRange_of_idle hp
  | refuse inp r c hp => exact State.cntInRange_of_idle hp
  | acceptExpand => exact show (15#7).toNat < 16 by decide
  | acceptEncrypt => exact show 1 ≤ (1#7).toNat ∧ (1#7).toNat ≤ 12 by decide
  | acceptDecrypt => exact show 1 ≤ (12#7).toNat ∧ (12#7).toNat ≤ 12 by decide
  | pack inp i => exact State.packMicro_cntInRange _ i
  | init inp i => exact State.initMicro_cntInRange _ i
  | mix inp k => exact State.mixMicro_cntInRange _ k
  | encRound inp r => exact State.encMicro_cntInRange _ r
  | decRound inp r => exact State.decMicro_cntInRange _ r

/-- R27: a micro-step with `cnt` in range is defined. -/
theorem State.microStep_next {st : State} (h : st.CntInRange) : ∃ t, st.microStep = .next t := by
  unfold State.CntInRange at h
  cases hp : st.phase with
  | idle => exact ⟨st, st.microStep_idle hp⟩
  | ksPack => exact ⟨_, st.microStep_ksPack hp ⟨st.cnt.toNat, by simpa [hp] using h⟩ rfl⟩
  | ksInit => exact ⟨_, st.microStep_ksInit hp ⟨st.cnt.toNat, by simpa [hp] using h⟩ rfl⟩
  | ksMix => exact ⟨_, st.microStep_ksMix hp ⟨st.cnt.toNat, by simpa [hp] using h⟩ rfl⟩
  | encRound =>
    have hr : 1 ≤ st.cnt.toNat ∧ st.cnt.toNat ≤ 12 := by simpa [hp] using h
    exact ⟨_, st.microStep_encRound hp ⟨st.cnt.toNat - 1, by omega⟩ (Nat.sub_add_cancel hr.1).symm⟩
  | decRound =>
    have hr : 1 ≤ st.cnt.toNat ∧ st.cnt.toNat ≤ 12 := by simpa [hp] using h
    exact ⟨_, st.microStep_decRound hp ⟨st.cnt.toNat - 1, by omega⟩ (Nat.sub_add_cancel hr.1).symm⟩

/-- R132, R161: with `cnt` in range a step neither faults nor refuses. -/
theorem step_next {st : State} (h : st.CntInRange) : ∃ t, step st = .next t := by
  cases hn : st.resetNext with
  | true => exact ⟨_, step_reset hn⟩
  | false =>
    by_cases hp : st.phase = .idle
    · obtain ⟨w, rest, -, -, he⟩ | ⟨i, -, he⟩ | ⟨-, inp, he⟩ := step_idle_cases hp hn
      · obtain ⟨t, ht, -⟩ := exec_idle_next (st := st.dropInput) hp (decode w)
        exact ⟨t, he.trans ht⟩
      · exact ⟨_, he⟩
      · exact ⟨_, he⟩
    · obtain ⟨-, inp, he⟩ := step_busy_cases hp hn
      obtain ⟨t, ht⟩ := State.microStep_next (st := st.withPorts inp none) h
      exact ⟨t, he.trans ht⟩

/-- Settles O51: a step from `cnt` in range is defined, and every defined step leaves `cnt` in range. -/
theorem machineNeverStops : Obligations.MachineNeverStops := by
  intro st h
  obtain ⟨t, ht⟩ := step_next h
  exact ⟨t, ht, step_cntInRange ht⟩

/-! ## R20, R16, R19: who writes `keyed`, the table and the latched key -/

theorem State.packMicro_frame (st : State) (i : Fin 16) :
    (st.packMicro i).keyed = st.keyed ∧ (st.packMicro i).S = st.S ∧ (st.packMicro i).K = st.K := by
  by_cases h : i.val = 0
  · simp [State.packMicro_last st h]
  · simp [State.packMicro_more st h]

theorem State.initMicro_frame (st : State) (i : Fin 26) :
    (st.initMicro i).keyed = st.keyed ∧ (st.initMicro i).K = st.K := by
  by_cases h : i.val = 25
  · simp [State.initMicro_last st h]
  · simp [State.initMicro_more st h]

theorem State.mixMicro_keyed (st : State) {k : Fin 78} (h : k.val ≠ 77) : (st.mixMicro k).keyed = st.keyed := by
  simp [State.mixMicro_more st h]

theorem State.mixMicro_K (st : State) (k : Fin 78) : (st.mixMicro k).K = st.K := by
  by_cases h : k.val = 77
  · simp [State.mixMicro_last st h]
  · simp [State.mixMicro_more st h]

theorem State.encMicro_frame (st : State) (r : Round) :
    (st.encMicro r).keyed = st.keyed ∧ (st.encMicro r).S = st.S ∧ (st.encMicro r).K = st.K := by
  by_cases h : r.val = 11
  · simp [State.encMicro_last st h]
  · simp [State.encMicro_more st h]

theorem State.decMicro_frame (st : State) (r : Round) :
    (st.decMicro r).keyed = st.keyed ∧ (st.decMicro r).S = st.S ∧ (st.decMicro r).K = st.K := by
  by_cases h : r.val = 0
  · simp [State.decMicro_last st h]
  · simp [State.decMicro_more st h]

/-- Settles O52: the case split of a step; of the micro-steps only the last one of KS_MIX writes `keyed`. -/
theorem onlyExpandAndResetWriteKeyed : Obligations.OnlyExpandAndResetWriteKeyed := by
  intro st t h hne
  cases stepEffect_of_step h with
  | reset hn => exact .inl ⟨hn, rfl⟩
  | expand inp r key ha => exact .inr (.inl ⟨key, ha⟩)
  | acceptExpand inp key ha => exact .inr (.inl ⟨key, ha⟩)
  | wait | refuse | encrypt | decrypt | acceptEncrypt | acceptDecrypt => exact absurd rfl hne
  | pack inp i => exact absurd (State.packMicro_frame _ i).1 hne
  | init inp i => exact absurd (State.initMicro_frame _ i).1 hne
  | mix inp k hp hk =>
    by_cases hl : k.val = 77
    · rw [State.mixMicro_last _ hl]
      exact .inr (.inr ⟨hp, hk.trans hl, rfl, rfl⟩)
    · exact absurd (State.mixMicro_keyed _ hl) hne
  | encRound inp r => exact absurd (State.encMicro_frame _ r).1 hne
  | decRound inp r => exact absurd (State.decMicro_frame _ r).1 hne

/-- R16: without a reset only an EXPAND writes the table. -/
theorem step_table_write {st t : State} (h : step st = .next t) (hn : st.resetNext = false) (hne : t.S ≠ st.S) :
    (∃ key, st.acceptsNext = some (.expand key)) ∨ st.phase = .ksInit ∨ st.phase = .ksMix := by
  cases stepEffect_of_step h with
  | reset hr => exact absurd (hr.symm.trans hn) (by decide)
  | expand inp r key ha => exact .inl ⟨key, ha⟩
  | acceptExpand inp key ha => exact .inl ⟨key, ha⟩
  | wait | refuse | encrypt | decrypt | acceptEncrypt | acceptDecrypt => exact absurd rfl hne
  | pack inp i => exact absurd (State.packMicro_frame _ i).2.1 hne
  | init inp i hp => exact .inr (.inl hp)
  | mix inp k hp => exact .inr (.inr hp)
  | encRound inp r => exact absurd (State.encMicro_frame _ r).2.1 hne
  | decRound inp r => exact absurd (State.decMicro_frame _ r).2.1 hne

/-- R19: without a reset only the acceptance of an EXPAND writes the latched key, with that EXPAND's key. -/
theorem step_key_write {st t : State} (h : step st = .next t) (hn : st.resetNext = false) (hne : t.K ≠ st.K) :
    ∃ key, st.acceptsNext = some (.expand key) ∧ t.K = key := by
  cases stepEffect_of_step h with
  | reset hr => exact absurd (hr.symm.trans hn) (by decide)
  | expand inp r key ha => exact ⟨key, ha, rfl⟩
  | acceptExpand inp key ha => exact ⟨key, ha, rfl⟩
  | wait | refuse | encrypt | decrypt | acceptEncrypt | acceptDecrypt => exact absurd rfl hne
  | pack inp i => exact absurd (State.packMicro_frame _ i).2.2 hne
  | init inp i => exact absurd (State.initMicro_frame _ i).2 hne
  | mix inp k => exact absurd (State.mixMicro_K _ k) hne
  | encRound inp r => exact absurd (State.encMicro_frame _ r).2.2 hne
  | decRound inp r => exact absurd (State.decMicro_frame _ r).2.2 hne

/-- Settles O53: R16 for the table, R19 for the latched key. -/
theorem onlyExpandWritesTableAndKey : Obligations.OnlyExpandWritesTableAndKey :=
  fun _ _ h hn => ⟨step_table_write h hn, step_key_write h hn⟩

/-! ## R24, R25: the cyclic indices -/

/-- Settles O16, by induction on the number of iterations. -/
theorem mixIndicesAreModular : Obligations.MixIndicesAreModular := by
  intro S L k
  induction k with
  | zero => exact ⟨rfl, rfl⟩
  | succ k ih =>
    obtain ⟨hs, hl⟩ := ih
    rw [Function.iterate_succ_apply', mixStep_s, mixStep_l]
    simp only [nextS, nextL, hs, hl]
    omega

/-! ## R17, R20, R130: the invariant of the machine -/

theorem State.Inv.of_idle {st : State} (hp : st.phase = .idle) (ht : st.TableIsExpanded) (hr : st.ResponsesOk) :
    st.Inv where
  cntInRange := State.cntInRange_of_idle hp
  keyedInPhase := by simp [State.KeyedInPhase, hp]
  tableIsExpanded := ht
  scheduleProgress := by simp [State.ScheduleProgress, hp]
  responsesOk := hr

theorem State.TableIsExpanded.of_unkeyed {st : State} (h : st.keyed = false) : st.TableIsExpanded :=
  fun hk => absurd (h.symm.trans hk) (by decide)

section ResponsesOk

variable {st t : State}

/-- R60: a step that gives no response. -/
theorem State.ResponsesOk.silent (h : st.ResponsesOk) (hr : t.rsp = none) (hs : t.responses = st.responses) :
    t.ResponsesOk :=
  ⟨fun _ he => absurd (hr.symm.trans he) (by simp), hs ▸ h.2⟩

/-- R60, R62: a step that gives one response more. -/
theorem State.ResponsesOk.answered {r : Response} (h : st.ResponsesOk) (hd : r.status ≠ .ok → r.data = none)
    (hr : t.rsp = some r) (hs : t.responses = st.responses ++ [r]) : t.ResponsesOk := by
  refine ⟨fun q hq => ?_, fun q hq => ?_⟩
  · rw [hs, List.getLast?_concat, ← hr, hq]
  · rw [hs, List.mem_append, List.mem_singleton] at hq
    rcases hq with hq | rfl
    · exact h.2 q hq
    · exact hd

/-- R60: a step that answers OK. -/
theorem State.ResponsesOk.answered_ok {d : Option Block} (h : st.ResponsesOk)
    (hr : t.rsp = some ⟨.ok, d⟩) (hs : t.responses = st.responses ++ [⟨.ok, d⟩]) : t.ResponsesOk :=
  h.answered (fun hne => absurd rfl hne) hr hs

end ResponsesOk

/-- The invariant does not look at the host's inputs, and holds with a quiet response port. -/
theorem State.Inv.withPorts {st : State} (h : st.Inv) (inp : List HostInput) : (st.withPorts inp none).Inv where
  cntInRange := h.cntInRange
  keyedInPhase := h.keyedInPhase
  tableIsExpanded := h.tableIsExpanded
  scheduleProgress := h.scheduleProgress
  responsesOk := h.responsesOk.silent rfl rfl

/-! ### The loops of an EXPAND, one iteration further -/

/-- R122: in KS_PACK the iterations for the key bytes below any `n` that is `cnt + 1` finish the packing. -/
theorem State.ScheduleProgress.packLoop {st : State} (h : st.ScheduleProgress) (hp : st.phase = .ksPack)
    (n : Nat) (hn : n ≤ 16) (hc : st.cnt.toNat + 1 = n) : packLoop st.K n hn st.L = packFn st.K := by
  subst hc
  simp only [State.ScheduleProgress, hp] at h
  exact h hn

/-- R123: in KS_INIT the key words are packed and the words before `cnt` are those of the initial table. -/
theorem State.ScheduleProgress.initPrefix {st : State} (h : st.ScheduleProgress) (hp : st.phase = .ksInit) :
    st.L = packFn st.K ∧ ∀ j : Fin 26, j.val < st.cnt.toNat → st.S[j] = initWord j.val := by
  simpa only [State.ScheduleProgress, hp] using h

/-- R124: in KS_MIX `cnt` iterations of the mixing pass are done. -/
theorem State.ScheduleProgress.iterate {st : State} (h : st.ScheduleProgress) (hp : st.phase = .ksMix) :
    st.getMix = mixStep^[st.cnt.toNat] (mixStart initTable (packFn st.K)) := by
  simpa only [State.ScheduleProgress, hp] using h

theorem initStep_get_same (S : Table) {i : Fin 26} (h : ∀ j : Fin 26, j.val < i.val → S[j] = initWord j.val) :
    (initStep S i)[i] = initWord i.val := by
  unfold initStep
  split
  · next h0 => simp [h0]
  · next h0 =>
    obtain ⟨n, hn⟩ := Nat.exists_eq_succ_of_ne_zero h0
    have hprev : S[i.val - 1] = initWord (i.val - 1) := h ⟨i.val - 1, by omega⟩ (by show i.val - 1 < i.val; omega)
    simp only [Fin.getElem_fin, Vector.getElem_set_self, hprev]
    rw [hn]; rfl

theorem initStep_get_other (S : Table) {i j : Fin 26} (h : i ≠ j) : (initStep S i)[j] = S[j] := by
  have hv : i.val ≠ j.val := fun e => h (Fin.ext e)
  unfold initStep
  split <;> simp [hv]

/-- R87: one iteration of the initialization loop completes one more word of the initial table. -/
theorem initStep_prefix (S : Table) {i : Fin 26} (h : ∀ j : Fin 26, j.val < i.val → S[j] = initWord j.val)
    (j : Fin 26) (hj : j.val ≤ i.val) : (initStep S i)[j] = initWord j.val := by
  by_cases he : i = j
  · subst he
    exact initStep_get_same S h
  · rw [initStep_get_other S he]
    exact h j (lt_of_le_of_ne hj fun e => he (Fin.ext e.symm))

theorem table_ext {S T : Table} (h : ∀ j : Fin 26, S[j] = T[j]) : S = T := Vector.ext fun j hj => h ⟨j, hj⟩

theorem eq_initTable {S : Table} (h : ∀ j : Fin 26, S[j] = initWord j.val) : S = initTable :=
  table_ext fun j => (h j).trans (initTable_get j).symm

/-! ### Each effect of a step keeps the invariant -/

section inv

variable {st : State}

theorem State.KeyedInPhase.keyed_eq_false (h : st.KeyedInPhase)
    (hp : st.phase = .ksPack ∨ st.phase = .ksInit ∨ st.phase = .ksMix) : st.keyed = false := by
  rcases hp with hp | hp | hp <;> simpa only [State.KeyedInPhase, hp] using h

theorem State.KeyedInPhase.keyed_eq_true (h : st.KeyedInPhase)
    (hp : st.phase = .encRound ∨ st.phase = .decRound) : st.keyed = true := by
  rcases hp with hp | hp <;> simpa only [State.KeyedInPhase, hp] using h

theorem State.Inv.acceptExpand (h : st.Inv) (key : Key) (hr : st.rsp = none) : (st.acceptExpand key).Inv where
  cntInRange := show (15#7).toNat < 16 by decide
  keyedInPhase := show (st.acceptExpand key).keyed = false from rfl
  tableIsExpanded := .of_unkeyed rfl
  scheduleProgress := fun _ => rfl
  responsesOk := h.responsesOk.silent hr rfl

theorem State.Inv.acceptEncrypt (h : st.Inv) (b : Block) (hk : st.keyed = true) (hr : st.rsp = none) :
    (st.acceptEncrypt b).Inv where
  cntInRange := show 1 ≤ (1#7).toNat ∧ (1#7).toNat ≤ 12 by decide
  keyedInPhase := hk
  tableIsExpanded := h.tableIsExpanded
  scheduleProgress := trivial
  responsesOk := h.responsesOk.silent hr rfl

theorem State.Inv.acceptDecrypt (h : st.Inv) (b : Block) (hk : st.keyed = true) (hr : st.rsp = none) :
    (st.acceptDecrypt b).Inv where
  cntInRange := show 1 ≤ (12#7).toNat ∧ (12#7).toNat ≤ 12 by decide
  keyedInPhase := hk
  tableIsExpanded := h.tableIsExpanded
  scheduleProgress := trivial
  responsesOk := h.responsesOk.silent hr rfl

theorem State.Inv.packMicro (h : st.Inv) (hr : st.rsp = none) (i : Fin 16) (hp : st.phase = .ksPack)
    (hi : st.cnt.toNat = i.val) : (st.packMicro i).Inv := by
  have hk : st.keyed = false := h.keyedInPhase.keyed_eq_false (.inl hp)
  have hloop : ∀ n (hn : n ≤ 16), n = i.val → packLoop st.K n hn (packStep st.K st.L i) = packFn st.K := by
    rintro _ hn rfl
    rw [← packLoop_succ st.K i.val i.isLt]
    exact h.scheduleProgress.packLoop hp _ _ (congrArg (· + 1) hi)
  have hc := st.packMicro_cntInRange i
  by_cases h0 : i.val = 0
  · rw [State.packMicro_last st h0] at hc ⊢
    have hL : packStep st.K st.L i = packFn st.K := hloop 0 (Nat.zero_le _) h0.symm
    exact ⟨hc, hk, .of_unkeyed hk, ⟨hL, fun j hj => absurd hj (Nat.not_lt_zero _)⟩, h.responsesOk.silent hr rfl⟩
  · rw [State.packMicro_more st h0] at hc ⊢
    have hn : (BitVec.ofNat 7 (i.val - 1)).toNat + 1 = i.val := by
      rw [BitVec.toNat_ofNat]
      omega
    refine ⟨hc, hk, .of_unkeyed hk, fun hb => ?_, h.responsesOk.silent hr rfl⟩
    exact hloop _ hb hn

theorem State.Inv.initMicro (h : st.Inv) (hr : st.rsp = none) (i : Fin 26) (hp : st.phase = .ksInit)
    (hi : st.cnt.toNat = i.val) : (st.initMicro i).Inv := by
  have hk : st.keyed = false := h.keyedInPhase.keyed_eq_false (.inr (.inl hp))
  obtain ⟨hL, hS⟩ := h.scheduleProgress.initPrefix hp
  rw [hi] at hS
  have hnew := initStep_prefix st.S hS
  have hc := st.initMicro_cntInRange i
  by_cases h25 : i.val = 25
  · rw [State.initMicro_last st h25] at hc ⊢
    have hT : initStep st.S i = initTable := eq_initTable fun j => hnew j (by omega)
    have hmix : mixStart (initStep st.S i) st.L = mixStart initTable (packFn st.K) := by rw [hT, hL]
    exact ⟨hc, hk, .of_unkeyed hk, hmix, h.responsesOk.silent hr rfl⟩
  · rw [State.initMicro_more st h25] at hc ⊢
    have hn : (BitVec.ofNat 7 (i.val + 1)).toNat = i.val + 1 := by
      rw [BitVec.toNat_ofNat]
      omega
    refine ⟨hc, hk, .of_unkeyed hk, ⟨hL, fun j hj => hnew j ?_⟩, h.responsesOk.silent hr rfl⟩
    rw [State.goto_cnt, hn] at hj
    exact Nat.le_of_lt_succ hj

theorem State.Inv.mixMicro (h : st.Inv) (hr : st.rsp = none) (k : Fin 78) (hp : st.phase = .ksMix)
    (hk : st.cnt.toNat = k.val) : (st.mixMicro k).Inv := by
  have hmix : mixStep st.getMix = mixStep^[k.val + 1] (mixStart initTable (packFn st.K)) := by
    rw [h.scheduleProgress.iterate hp, hk, Function.iterate_succ_apply']
  by_cases h77 : k.val = 77
  · rw [State.mixMicro_last st h77]
    have hS : (mixStep st.getMix).S = expandFn st.K := by
      rw [hmix, h77, expandFn, mixFn_eq]
    exact .of_idle rfl (fun _ => hS) (h.responsesOk.answered_ok rfl rfl)
  · have hu : st.keyed = false := h.keyedInPhase.keyed_eq_false (.inr (.inr hp))
    have hc := st.mixMicro_cntInRange k
    rw [State.mixMicro_more st h77] at hc ⊢
    have hn : (BitVec.ofNat 7 (k.val + 1)).toNat = k.val + 1 := by
      rw [BitVec.toNat_ofNat]
      omega
    refine ⟨hc, hu, .of_unkeyed hu, ?_, h.responsesOk.silent hr rfl⟩
    show mixStep st.getMix = mixStep^[(BitVec.ofNat 7 (k.val + 1)).toNat] (mixStart initTable (packFn st.K))
    rw [hn, hmix]

theorem State.Inv.encMicro (h : st.Inv) (hr : st.rsp = none) (r : Round) (hp : st.phase = .encRound) :
    (st.encMicro r).Inv := by
  by_cases h11 : r.val = 11
  · rw [State.encMicro_last st h11]
    exact .of_idle rfl h.tableIsExpanded (h.responsesOk.answered_ok rfl rfl)
  · have hk : st.keyed = true := h.keyedInPhase.keyed_eq_true (.inl hp)
    have hc := st.encMicro_cntInRange r
    rw [State.encMicro_more st h11] at hc ⊢
    exact ⟨hc, hk, h.tableIsExpanded, trivial, h.responsesOk.silent hr rfl⟩

theorem State.Inv.decMicro (h : st.Inv) (hr : st.rsp = none) (r : Round) (hp : st.phase = .decRound) :
    (st.decMicro r).Inv := by
  by_cases h0 : r.val = 0
  · rw [State.decMicro_last st h0]
    exact .of_idle rfl h.tableIsExpanded (h.responsesOk.answered_ok rfl rfl)
  · have hk : st.keyed = true := h.keyedInPhase.keyed_eq_true (.inr hp)
    have hc := st.decMicro_cntInRange r
    rw [State.decMicro_more st h0] at hc ⊢
    exact ⟨hc, hk, h.tableIsExpanded, trivial, h.responsesOk.silent hr rfl⟩

end inv

/-- Settles O49: every effect of a step keeps the invariant; the idle ones need only the table and the responses. -/
theorem stepKeepsInvariant : Obligations.StepKeepsInvariant := by
  intro st t h hs
  cases stepEffect_of_step hs with
  | reset => exact .of_idle rfl (.of_unkeyed rfl) (h.responsesOk.silent rfl rfl)
  | wait inp hp => exact .of_idle hp h.tableIsExpanded (h.responsesOk.silent rfl rfl)
  | refuse inp r c hp => exact .of_idle hp h.tableIsExpanded (h.responsesOk.answered (fun _ => rfl) rfl rfl)
  | expand => exact .of_idle rfl (fun _ => rfl) (h.responsesOk.answered_ok rfl rfl)
  | encrypt => exact .of_idle rfl h.tableIsExpanded (h.responsesOk.answered_ok rfl rfl)
  | decrypt => exact .of_idle rfl h.tableIsExpanded (h.responsesOk.answered_ok rfl rfl)
  | acceptExpand inp key => exact (h.withPorts inp).acceptExpand key rfl
  | acceptEncrypt inp b hk => exact (h.withPorts inp).acceptEncrypt b hk rfl
  | acceptDecrypt inp b hk => exact (h.withPorts inp).acceptDecrypt b hk rfl
  | pack inp i hp hi => exact (h.withPorts inp).packMicro rfl i hp hi
  | init inp i hp hi => exact (h.withPorts inp).initMicro rfl i hp hi
  | mix inp k hp hk => exact (h.withPorts inp).mixMicro rfl k hp hk
  | encRound inp r hp => exact (h.withPorts inp).encMicro rfl r hp
  | decRound inp r hp => exact (h.withPorts inp).decMicro rfl r hp

/-- Settles O50: an idle core without a key that has answered nothing meets the invariant, whatever else it holds. -/
theorem resetMeetsInvariant : Obligations.ResetMeetsInvariant :=
  .of_idle rfl (.of_unkeyed rfl) ⟨fun _ h => (nomatch h), fun _ h => absurd h List.not_mem_nil⟩

/-! ## R31, R33, R17: the commands at Level T -/

/-- Settles O34: a busy core is left as it is, and on an idle one each of the three commands answers once. -/
theorem nonExpandFrame : Obligations.NonExpandFrame := by
  intro i st t hx h
  by_cases hp : st.phase = .idle
  · obtain ⟨-, c, he⟩ | ⟨key, rfl, -⟩ | ⟨-, -, b, he⟩ | ⟨-, -, b, he⟩ := exec_idle_cases hp i
    · obtain rfl := Host.Outcome.next.inj (he.symm.trans h)
      exact ⟨rfl, rfl, rfl, rfl, rfl, rfl, rfl, rfl, rfl, .inr ⟨_, rfl, rfl⟩⟩
    · cases hx
    all_goals
      obtain rfl := Host.Outcome.next.inj (he.symm.trans h)
      exact ⟨rfl, rfl, rfl, rfl, rfl, rfl, hp.symm, rfl, rfl, .inr ⟨_, rfl, rfl⟩⟩
  · obtain rfl := Host.Outcome.next.inj ((exec_busy hp i).symm.trans h)
    exact ⟨rfl, rfl, rfl, rfl, rfl, rfl, rfl, rfl, rfl, .inl rfl⟩

/-- R91: what an EXPAND leaves in an idle core. -/
theorem exec_expand_idle {st : State} (h : st.phase = .idle) (key : Key) :
    exec (.expand key) st = .next ((st.expandKey key).respond .ok none) := by
  simp [exec, execExpand, State.whenReady_idle h]

/-- Settles O35: `expandKey` writes every one of these registers, and from the key alone. -/
theorem rekeyIndependentOfOldState : Obligations.RekeyIndependentOfOldState := by
  intro key a b a' b' ha hb ea eb
  obtain rfl := Host.Outcome.next.inj ((exec_expand_idle ha key).symm.trans ea)
  obtain rfl := Host.Outcome.next.inj ((exec_expand_idle hb key).symm.trans eb)
  exact ⟨rfl, rfl, rfl, rfl, rfl, rfl, rfl, rfl, rfl⟩

/-- The step that runs a command first among the inputs of an idle core. -/
theorem step_encoded_command {st : State} {i : Instr} {rest : List HostInput} (hp : st.phase = .idle)
    (hi : st.input = .command (encode i) :: rest) : step st = exec i st.dropInput := by
  rw [step_command_ready hp hi, decode_encode]

/-- R119: an idle core runs any list of commands to its end, and is idle then; what each of the commands keeps, the run
keeps. -/
theorem runSteps_commands {P : State → Prop} (is : List Instr) (rest : List HostInput)
    (hP : ∀ i ∈ is, ∀ s t, s.phase = .idle → P s → exec i s.dropInput = .next t → P t) :
    ∀ st : State, st.phase = .idle → P st → st.input = is.map (fun i => .command (encode i)) ++ rest →
      ∃ t, runSteps is.length st = .next t ∧ t.phase = .idle ∧ P t ∧ t.input = rest := by
  induction is with
  | nil => exact fun st hp h hi => ⟨st, rfl, hp, h, hi⟩
  | cons i is ih =>
    intro st hp h hi
    obtain ⟨u, he, hu, hui⟩ := exec_idle_next (st := st.dropInput) hp i
    have hrest : u.input = is.map (fun i => .command (encode i)) ++ rest := by
      rw [hui, State.dropInput_input, hi]
      rfl
    obtain ⟨t, ht⟩ := ih (fun j hj => hP j (List.mem_cons_of_mem i hj)) u hu
      (hP i List.mem_cons_self st u hp h he) hrest
    exact ⟨t, by rwa [List.length_cons, runSteps_succ_next ((step_encoded_command hp hi).trans he)]⟩

/-- R17: the core holds the table of a key, and the key. -/
def State.HoldsKey (key : Key) (st : State) : Prop := st.keyed = true ∧ st.S = expandFn key ∧ st.K = key

theorem exec_expand_holdsKey {st t : State} {key : Key} (hp : st.phase = .idle)
    (h : exec (.expand key) st = .next t) : t.HoldsKey key := by
  obtain rfl := Host.Outcome.next.inj ((exec_expand_idle hp key).symm.trans h)
  exact ⟨rfl, rfl, rfl⟩

theorem exec_nonExpand_holdsKey {st t : State} {i : Instr} {key : Key} (hx : isExpand i = false)
    (hk : st.HoldsKey key) (h : exec i st = .next t) : t.HoldsKey key := by
  obtain ⟨hS, hkeyed, -, hK, -⟩ := nonExpandFrame i st t hx h
  obtain ⟨h1, h2, h3⟩ := hk
  exact ⟨hkeyed.trans h1, hS.trans h2, hK.trans h3⟩

/-- Settles O39: the commands before the EXPAND leave the core idle, the EXPAND gives it the key, and no command after it
takes the key away. -/
theorem tableBelongsToLastKey : Obligations.TableBelongsToLastKey := by
  intro before after key st hp hx hi
  rw [List.map_append, List.map_append, List.append_assoc] at hi
  obtain ⟨u, hu, hup, -, hui⟩ := runSteps_commands (P := fun _ => True) before _
    (fun _ _ _ _ _ _ _ => trivial) st hp trivial hi
  obtain ⟨v, hv, hvp, hvi⟩ := exec_idle_next (st := u.dropInput) hup (.expand key)
  have hvin : v.input = after.map (fun i => .command (encode i)) ++ [] := by
    rw [hvi, State.dropInput_input, hui, List.append_nil]
    rfl
  obtain ⟨t, ht, htp, ⟨hk, hS, hK⟩, -⟩ := runSteps_commands (P := State.HoldsKey key) after []
    (fun i hi s _ _ hs he => exec_nonExpand_holdsKey (st := s.dropInput) (hx i hi) hs he) v hvp
    (exec_expand_holdsKey (st := u.dropInput) hup hv) hvin
  refine ⟨t, ?_, htp, hk, hS, hK⟩
  rw [Nat.add_assoc, runSteps_add hu, Nat.add_comm 1, runSteps_succ_next ((step_encoded_command hup hui).trans hv), ht]

/-! ## R32, R26: after reset -/

/-- Settles O2: the fields of the reset state and the outputs that follow from them. -/
theorem resetIsIdleAndUnkeyed : Obligations.ResetIsIdleAndUnkeyed := ⟨rfl, rfl, rfl⟩

/-! ## R28 to R30: what the host cannot see -/

/-- The registers the running command still reads hold the same; in an idle core that is the table, while keyed. In KS_INIT
the table's words from `cnt` on are still to be written. -/
def State.LiveAgree (a b : State) : Prop :=
  match a.phase with
  | .idle => a.keyed = true → a.S = b.S
  | .ksPack => a.cnt = b.cnt ∧ a.K = b.K ∧ a.L = b.L
  | .ksInit => a.cnt = b.cnt ∧ a.L = b.L ∧ ∀ j : Fin 26, j.val < a.cnt.toNat → a.S[j] = b.S[j]
  | .ksMix => a.cnt = b.cnt ∧ a.getMix = b.getMix
  | .encRound => a.cnt = b.cnt ∧ a.S = b.S ∧ a.getAB = b.getAB
  | .decRound => a.cnt = b.cnt ∧ a.S = b.S ∧ a.getAB = b.getAB

/-- Two states the host cannot tell apart: what it sees is the same, and so is what a running command will use. -/
structure SameView (a b : State) : Prop where
  phase : a.phase = b.phase
  keyed : a.keyed = b.keyed
  input : a.input = b.input
  rsp : a.rsp = b.rsp
  responses : a.responses = b.responses
  live : a.LiveAgree b

/-- Two outcomes that are next states the host cannot tell apart. -/
def SameOutcome (x y : StepOutcome) : Prop := ∃ a b, x = .next a ∧ y = .next b ∧ SameView a b

theorem SameView.sameOutcome {a b : State} (h : SameView a b) : SameOutcome (.next a) (.next b) := ⟨a, b, rfl, rfl, h⟩

/-- What an initialization step writes depends on the words before it alone. -/
theorem initStep_congr {S T : Table} {i : Fin 26} (h : ∀ j : Fin 26, j.val < i.val → S[j] = T[j])
    (j : Fin 26) (hj : j.val ≤ i.val) : (initStep S i)[j] = (initStep T i)[j] := by
  by_cases he : i = j
  · subst he
    by_cases h0 : i.val = 0
    · simp [initStep, h0]
    · have hprev : S[i.val - 1] = T[i.val - 1] := h ⟨i.val - 1, by omega⟩ (by show i.val - 1 < i.val; omega)
      simp [initStep, h0, hprev]
  · rw [initStep_get_other S he, initStep_get_other T he]
    exact h j (lt_of_le_of_ne hj fun e => he (Fin.ext e.symm))

theorem exists_round {n : Nat} (h : 1 ≤ n ∧ n ≤ 12) : ∃ r : Round, n = r.val + 1 :=
  ⟨⟨n - 1, by omega⟩, (Nat.sub_add_cancel h.1).symm⟩

theorem State.levelT_keyed {st : State} (h : st.keyed = true) : st.levelT = some st.S := if_pos h

theorem State.levelT_unkeyed {st : State} (h : st.keyed = false) : st.levelT = none := by simp [State.levelT, h]

/-- R30: the Level T state of two cores is the same exactly when `keyed` is and, while keyed, the table is. -/
theorem levelT_eq_iff (a b : State) :
    a.levelT = b.levelT ↔ a.keyed = b.keyed ∧ (a.keyed = true → a.S = b.S) := by
  cases ha : a.keyed <;> cases hb : b.keyed <;>
    simp [State.levelT_keyed, State.levelT_unkeyed, ha, hb]

theorem SameAtLevelT.sameView {a b : State} (h : SameAtLevelT a b) : SameView a b := by
  obtain ⟨hk, hS⟩ := (levelT_eq_iff a b).mp h.levelT
  refine ⟨h.leftIdle.trans h.rightIdle.symm, hk, h.input, h.rsp, h.responses, ?_⟩
  simpa only [State.LiveAgree, h.leftIdle] using hS

theorem SameView.outPins {a b : State} (h : SameView a b) : a.outPins = b.outPins := by
  simp [State.outPins, State.ready, State.busy, h.phase, h.keyed, h.rsp, h.responses]

/-! ### The effects of a step on two such states -/

section effects

variable {a b : State} (h : SameView a b)

include h

theorem SameView.table_of_idle (hp : a.phase = .idle) (hk : a.keyed = true) : a.S = b.S := by
  have hl := h.live
  simp only [State.LiveAgree, hp] at hl
  exact hl hk

theorem SameView.dropInput : SameView a.dropInput b.dropInput :=
  ⟨h.phase, h.keyed, congrArg List.tail h.input, h.rsp, h.responses, h.live⟩

theorem SameView.quietRsp : SameView a.quietRsp b.quietRsp :=
  ⟨h.phase, h.keyed, h.input, rfl, h.responses, h.live⟩

/-- R32: whatever the free values are, the table is not readable after a reset. -/
theorem SameView.resetEvent : SameView a.resetEvent b.resetEvent :=
  ⟨rfl, rfl, h.input, rfl, h.responses, fun hk => nomatch hk⟩

theorem SameView.refuse (c : Status) : SameView (a.refuse c) (b.refuse c) :=
  ⟨h.phase, h.keyed, h.input, rfl, by simp [h.responses], h.live⟩

theorem SameView.expandKey (key : Key) :
    SameView ((a.expandKey key).respond .ok none) ((b.expandKey key).respond .ok none) :=
  ⟨rfl, rfl, h.input, rfl, congrArg (· ++ [(⟨.ok, none⟩ : Response)]) h.responses, fun _ => rfl⟩

theorem SameView.encryptBlock (hS : a.S = b.S) (p : Block) : SameView (a.encryptBlock p) (b.encryptBlock p) := by
  simp only [State.encryptBlock, hS]
  exact ⟨rfl, h.keyed, h.input, rfl, by simp [h.responses], fun _ => hS⟩

theorem SameView.decryptBlock (hS : a.S = b.S) (c : Block) : SameView (a.decryptBlock c) (b.decryptBlock c) := by
  simp only [State.decryptBlock, hS]
  exact ⟨rfl, h.keyed, h.input, rfl, by simp [h.responses], fun _ => hS⟩

theorem SameView.acceptExpand (key : Key) : SameView (a.acceptExpand key) (b.acceptExpand key) :=
  ⟨rfl, rfl, h.input, h.rsp, h.responses, ⟨rfl, rfl, rfl⟩⟩

theorem SameView.acceptEncrypt (hS : a.S = b.S) (p : Block) : SameView (a.acceptEncrypt p) (b.acceptEncrypt p) := by
  simp only [State.acceptEncrypt, hS]
  exact ⟨rfl, h.keyed, h.input, h.rsp, h.responses, ⟨rfl, hS, rfl⟩⟩

theorem SameView.acceptDecrypt (hS : a.S = b.S) (c : Block) : SameView (a.acceptDecrypt c) (b.acceptDecrypt c) :=
  ⟨rfl, h.keyed, h.input, h.rsp, h.responses, ⟨rfl, hS, rfl⟩⟩

/-- A block command: refused by both cores, or with its effect on both. -/
theorem SameView.whenKeyed (hp : a.phase = .idle) {f : State → State} (hf : a.S = b.S → SameView (f a) (f b)) :
    SameOutcome (a.whenKeyed fun st => .next (f st)) (b.whenKeyed fun st => .next (f st)) := by
  cases hk : a.keyed with
  | true =>
    rw [State.whenKeyed_keyed hk, State.whenKeyed_keyed (h.keyed ▸ hk)]
    exact (hf (h.table_of_idle hp hk)).sameOutcome
  | false =>
    rw [State.whenKeyed_unkeyed hk, State.whenKeyed_unkeyed (h.keyed ▸ hk)]
    exact (h.refuse .notKeyed).sameOutcome

/-- R120: a command of Level T. -/
theorem SameView.exec (hp : a.phase = .idle) (i : Instr) :
    SameOutcome (Machine.exec i a) (Machine.exec i b) := by
  have hpb : b.phase = .idle := h.phase ▸ hp
  cases i with
  | reserved ig =>
    simpa only [Machine.exec, execReserved, State.whenReady_idle hp, State.whenReady_idle hpb]
      using (h.refuse .reservedOp).sameOutcome
  | expand key =>
    simpa only [Machine.exec, execExpand, State.whenReady_idle hp, State.whenReady_idle hpb]
      using (h.expandKey key).sameOutcome
  | encrypt ig w1 w0 =>
    simpa only [Machine.exec, execEncrypt, State.whenReady_idle hp, State.whenReady_idle hpb]
      using h.whenKeyed hp fun hS => h.encryptBlock hS (blockOf w1 w0)
  | decrypt ig w1 w0 =>
    simpa only [Machine.exec, execDecrypt, State.whenReady_idle hp, State.whenReady_idle hpb]
      using h.whenKeyed hp fun hS => h.decryptBlock hS (blockOf w1 w0)

/-- R121, R125, R127, R129: the acceptance of a command at Level M. -/
theorem SameView.accept (hp : a.phase = .idle) (i : Instr) : SameView (a.accept i) (b.accept i) := by
  cases i with
  | reserved ig => exact h.refuse .reservedOp
  | expand key => exact h.acceptExpand key
  | encrypt ig w1 w0 =>
    cases hk : a.keyed with
    | true =>
      rw [State.accept_encrypt_keyed hk, State.accept_encrypt_keyed (h.keyed ▸ hk)]
      exact h.acceptEncrypt (h.table_of_idle hp hk) _
    | false =>
      rw [State.accept_encrypt_unkeyed hk, State.accept_encrypt_unkeyed (h.keyed ▸ hk)]
      exact h.refuse .notKeyed
  | decrypt ig w1 w0 =>
    cases hk : a.keyed with
    | true =>
      rw [State.accept_decrypt_keyed hk, State.accept_decrypt_keyed (h.keyed ▸ hk)]
      exact h.acceptDecrypt (h.table_of_idle hp hk) _
    | false =>
      rw [State.accept_decrypt_unkeyed hk, State.accept_decrypt_unkeyed (h.keyed ▸ hk)]
      exact h.refuse .notKeyed

/-- R122: a packing micro-step reads and writes the key words, and reads the latched key. -/
theorem SameView.packMicro (hK : a.K = b.K) (hL : a.L = b.L) (i : Fin 16) :
    SameView (a.packMicro i) (b.packMicro i) := by
  by_cases h0 : i.val = 0
  · rw [State.packMicro_last a h0, State.packMicro_last b h0, hK, hL]
    exact ⟨rfl, h.keyed, h.input, h.rsp, h.responses, ⟨rfl, rfl, fun j hj => absurd hj (Nat.not_lt_zero _)⟩⟩
  · rw [State.packMicro_more a h0, State.packMicro_more b h0, hK, hL]
    exact ⟨rfl, h.keyed, h.input, h.rsp, h.responses, ⟨rfl, hK, rfl⟩⟩

/-- R123: an initialization micro-step reads no word of the table but those written before it. -/
theorem SameView.initMicro (hL : a.L = b.L) (i : Fin 26) (hS : ∀ j : Fin 26, j.val < i.val → a.S[j] = b.S[j]) :
    SameView (a.initMicro i) (b.initMicro i) := by
  have hnew := initStep_congr hS
  by_cases h25 : i.val = 25
  · have hT : initStep a.S i = initStep b.S i := table_ext fun j => hnew j (by omega)
    rw [State.initMicro_last a h25, State.initMicro_last b h25, hT, hL]
    exact ⟨rfl, h.keyed, h.input, h.rsp, h.responses, ⟨rfl, rfl⟩⟩
  · rw [State.initMicro_more a h25, State.initMicro_more b h25]
    refine ⟨by simp, h.keyed, h.input, h.rsp, h.responses, ⟨by simp, hL, fun j hj => hnew j ?_⟩⟩
    rw [State.goto_cnt, BitVec.toNat_ofNat] at hj
    omega

/-- R124: a mixing micro-step reads and writes the registers of the mixing pass. -/
theorem SameView.mixMicro (hm : a.getMix = b.getMix) (k : Fin 78) : SameView (a.mixMicro k) (b.mixMicro k) := by
  by_cases h77 : k.val = 77
  · rw [State.mixMicro_last a h77, State.mixMicro_last b h77, hm]
    exact ⟨rfl, rfl, h.input, rfl, by simp [h.responses], fun _ => rfl⟩
  · rw [State.mixMicro_more a h77, State.mixMicro_more b h77, hm]
    exact ⟨rfl, h.keyed, h.input, h.rsp, h.responses, ⟨rfl, rfl⟩⟩

/-- R126: an encrypt round reads the table and the accumulators. -/
theorem SameView.encMicro (hS : a.S = b.S) (hab : a.getAB = b.getAB) (r : Round) :
    SameView (a.encMicro r) (b.encMicro r) := by
  by_cases h11 : r.val = 11
  · rw [State.encMicro_last a h11, State.encMicro_last b h11, hS, hab]
    exact ⟨rfl, h.keyed, h.input, rfl, by simp [h.responses], fun _ => hS⟩
  · rw [State.encMicro_more a h11, State.encMicro_more b h11, hS, hab]
    exact ⟨rfl, h.keyed, h.input, h.rsp, h.responses, ⟨rfl, hS, rfl⟩⟩

/-- R128: a decrypt round reads the table and the accumulators. -/
theorem SameView.decMicro (hS : a.S = b.S) (hab : a.getAB = b.getAB) (r : Round) :
    SameView (a.decMicro r) (b.decMicro r) := by
  by_cases h0 : r.val = 0
  · rw [State.decMicro_last a h0, State.decMicro_last b h0, hS, hab]
    exact ⟨rfl, h.keyed, h.input, rfl, by simp [h.responses], fun _ => hS⟩
  · rw [State.decMicro_more a h0, State.decMicro_more b h0, hS, hab]
    exact ⟨rfl, h.keyed, h.input, h.rsp, h.responses, ⟨rfl, hS, rfl⟩⟩

/-- R22: a micro-step of the running command, which is the same in both states. -/
theorem SameView.microStep (hc : a.CntInRange) : SameOutcome a.microStep b.microStep := by
  have hl := h.live
  simp only [State.CntInRange, State.LiveAgree] at hc hl
  cases hp : a.phase with
  | idle =>
    rw [a.microStep_idle hp, b.microStep_idle (h.phase ▸ hp)]
    exact h.sameOutcome
  | ksPack =>
    rw [hp] at hc hl
    obtain ⟨hcnt, hK, hL⟩ := hl
    let i : Fin 16 := ⟨a.cnt.toNat, hc⟩
    rw [a.microStep_ksPack hp i rfl, b.microStep_ksPack (h.phase ▸ hp) i (hcnt ▸ rfl)]
    exact (h.packMicro hK hL i).sameOutcome
  | ksInit =>
    rw [hp] at hc hl
    obtain ⟨hcnt, hL, hS⟩ := hl
    let i : Fin 26 := ⟨a.cnt.toNat, hc⟩
    rw [a.microStep_ksInit hp i rfl, b.microStep_ksInit (h.phase ▸ hp) i (hcnt ▸ rfl)]
    exact (h.initMicro hL i hS).sameOutcome
  | ksMix =>
    rw [hp] at hc hl
    obtain ⟨hcnt, hm⟩ := hl
    let k : Fin 78 := ⟨a.cnt.toNat, hc⟩
    rw [a.microStep_ksMix hp k rfl, b.microStep_ksMix (h.phase ▸ hp) k (hcnt ▸ rfl)]
    exact (h.mixMicro hm k).sameOutcome
  | encRound =>
    rw [hp] at hc hl
    obtain ⟨hcnt, hS, hab⟩ := hl
    obtain ⟨r, hr⟩ := exists_round hc
    rw [a.microStep_encRound hp r hr, b.microStep_encRound (h.phase ▸ hp) r (hcnt ▸ hr)]
    exact (h.encMicro hS hab r).sameOutcome
  | decRound =>
    rw [hp] at hc hl
    obtain ⟨hcnt, hS, hab⟩ := hl
    obtain ⟨r, hr⟩ := exists_round hc
    rw [a.microStep_decRound hp r hr, b.microStep_decRound (h.phase ▸ hp) r (hcnt ▸ hr)]
    exact (h.decMicro hS hab r).sameOutcome

/-- One slot of the ports, with the same pins. -/
theorem SameView.slot (hc : a.CntInRange) (p : Pins) : SameOutcome (a.slot p) (b.slot p) := by
  cases hr : p.rst with
  | true =>
    rw [State.slot_reset hr, State.slot_reset hr]
    exact h.resetEvent.sameOutcome
  | false =>
    by_cases hp : a.phase = .idle
    · have hpb : b.phase = .idle := h.phase ▸ hp
      cases hv : p.cmdValid with
      | true =>
        rw [State.slot_accept hr hv hp, State.slot_accept hr hv hpb]
        exact (h.quietRsp.accept hp _).sameOutcome
      | false =>
        rw [State.slot_wait hr hv hp, State.slot_wait hr hv hpb]
        exact h.quietRsp.sameOutcome
    · rw [State.slot_busy hr hp, State.slot_busy hr (h.phase ▸ hp)]
      exact h.quietRsp.microStep hc

/-- R28: one step from two states the host cannot tell apart leaves two such states. -/
theorem SameView.step (hc : a.CntInRange) : SameOutcome (Machine.step a) (Machine.step b) := by
  match hi : a.input with
  | [] =>
    rw [step_nothing hi, step_nothing (h.input ▸ hi)]
    exact h.slot hc quietPins
  | .command w :: rest =>
    by_cases hp : a.phase = .idle
    · rw [step_command_ready hp hi, step_command_ready (h.phase ▸ hp) (h.input ▸ hi)]
      exact h.dropInput.exec hp (decode w)
    · rw [step_command_busy hp hi, step_command_busy (h.phase ▸ hp) (h.input ▸ hi)]
      exact h.slot hc quietPins
  | .slot p :: rest =>
    rw [step_slot hi, step_slot (h.input ▸ hi)]
    exact h.dropInput.slot hc p

end effects

/-- R28: and so does any number of steps. -/
theorem SameView.runSteps (n : Nat) : ∀ {a b : State}, SameView a b → a.CntInRange →
    SameOutcome (Machine.runSteps n a) (Machine.runSteps n b) := by
  induction n with
  | zero => exact fun h _ => h.sameOutcome
  | succ n ih =>
    intro a b h hc
    obtain ⟨a', b', ha, hb, h'⟩ := h.step hc
    rw [runSteps_succ_next ha, runSteps_succ_next hb]
    exact ih h' (step_cntInRange ha)

/-- Settles O57: the host sees the same in states it cannot tell apart, and every step keeps them so. -/
theorem scratchIsNotObservable : Obligations.ScratchIsNotObservable := by
  intro a b n h
  obtain ⟨a', b', ha, hb, h'⟩ := h.sameView.runSteps n (State.cntInRange_of_idle h.leftIdle)
  rw [ha, hb]
  simp only [observed, h'.outPins, h'.responses]

end Sys2Proof.Machine
end

