-- ==== Sys2Proof/Proofs/Memory.lean ====
section
/-! PROOFS. The statements of 20_memory.md: how the key bytes stand in the key words (R39), who reads and who writes the
arrays while a command runs (R47, R50), and what a reset leaves of the key (R52). -/

namespace Sys2Proof.Machine

/-! ## R39: the key bytes in the key words -/

/-- R86: as numbers, an iteration moves the bytes of its key word one place up and puts the key byte below them; what is
moved past bit 31 is lost. -/
theorem packStep_get_toNat (key : Key) (L : KeyWords) {i : Fin 16} {j : Fin 4} (h : packIndex i = j) :
    (packStep key L i)[j].toNat = (L[j].toNat * 2 ^ 8 + key[i].toNat) % 2 ^ 32 := by
  subst h
  have hb : key[i].toNat % 2 ^ 32 = key[i].toNat := Nat.mod_eq_of_lt (key[i].isLt.trans (by decide))
  rw [packStep_get_same, add32_eq, BitVec.toNat_add, shl32, zext32, BitVec.toNat_setWidth, hb, BitVec.toNat_shiftLeft,
    Nat.shiftLeft_eq, Nat.mod_add_mod]

theorem packIndex_mk_eq_iff {n : Nat} (h : n < 16) (j : Fin 4) : packIndex ⟨n, h⟩ = j ↔ n / 4 = j.val := Fin.ext_iff

/-- The iterations for key bytes below those of word `j` leave the word alone. -/
theorem packLoop_get_below (key : Key) (j : Fin 4) (n : Nat) (h : n ≤ 16) (L : KeyWords) (hn : n ≤ 4 * j.val) :
    (packLoop key n h L)[j] = L[j] := by
  induction n generalizing L with
  | zero => rfl
  | succ n ih =>
    rw [packLoop_succ, ih _ _ (by omega)]
    have hi : packIndex ⟨n, h⟩ ≠ j := by
      rw [Ne, packIndex_mk_eq_iff]
      omega
    exact packStep_get_other key L ⟨n, h⟩ j hi

/-- R39: once the iterations for its four key bytes have run, a key word is those bytes, the lowest index in the lowest
bits; nothing it held before is left. -/
theorem packLoop_get_toNat (key : Key) (j : Fin 4) (n : Nat) (h : n ≤ 16) (L : KeyWords) (hn : 4 * j.val + 4 ≤ n) :
    (packLoop key n h L)[j].toNat =
      (key[4 * j.val]'(by omega)).toNat + (key[4 * j.val + 1]'(by omega)).toNat * 2 ^ 8 +
      (key[4 * j.val + 2]'(by omega)).toNat * 2 ^ 16 + (key[4 * j.val + 3]'(by omega)).toNat * 2 ^ 24 := by
  induction n, hn using Nat.le_induction generalizing L with
  | base =>
    have hi (t : Nat) (ht : t < 4) : packIndex ⟨4 * j.val + t, by omega⟩ = j := by
      rw [packIndex_mk_eq_iff]
      omega
    simp only [packLoop_succ]
    rw [packLoop_get_below key j _ _ _ le_rfl, packStep_get_toNat key _ (i := ⟨4 * j.val, by omega⟩) (hi 0 (by decide)),
      packStep_get_toNat key _ (hi 1 (by decide)), packStep_get_toNat key _ (hi 2 (by decide)),
      packStep_get_toNat key _ (hi 3 (by decide))]
    simp only [Fin.getElem_fin]
    omega
  | succ n hn ih => exact ih (by omega) (packStep key L ⟨n, h⟩)

/-- Settles O12: all sixteen iterations, those of each word among them. -/
theorem keyPacksLittleEndian : Obligations.KeyPacksLittleEndian :=
  fun key j => packLoop_get_toNat key j 16 le_rfl zeroKeyWords (by omega)

/-! ## R47: what the rounds of a block command leave alone -/

/-- R126: `encMicro_frame` for the registers of the key schedule and the draws. -/
theorem State.encMicro_schedule_frame (st : State) (r : Round) :
    (st.encMicro r).L = st.L ∧ (st.encMicro r).s = st.s ∧ (st.encMicro r).l = st.l ∧
      (st.encMicro r).draws = st.draws := by
  by_cases h : r.val = 11
  · simp [State.encMicro_last st h]
  · simp [State.encMicro_more st h]

/-- R128: `decMicro_frame` for the registers of the key schedule and the draws. -/
theorem State.decMicro_schedule_frame (st : State) (r : Round) :
    (st.decMicro r).L = st.L ∧ (st.decMicro r).s = st.s ∧ (st.decMicro r).l = st.l ∧
      (st.decMicro r).draws = st.draws := by
  by_cases h : r.val = 0
  · simp [State.decMicro_last st h]
  · simp [State.decMicro_more st h]

/-- Without a reset, a step of a running ENCRYPT or DECRYPT is a round of it. -/
theorem step_blockRound {st t : State} (hp : st.phase = .encRound ∨ st.phase = .decRound)
    (hn : st.resetNext = false) (h : step st = .next t) :
    ∃ inp r, t = (st.withPorts inp none).encMicro r ∨ t = (st.withPorts inp none).decMicro r := by
  have hb : st.phase ≠ .idle := by rcases hp with hp | hp <;> simp [hp]
  obtain ⟨-, inp, he⟩ := step_busy_cases hb hn
  have hm : (st.withPorts inp none).microStep = .next t := he.symm.trans h
  obtain ⟨hq, -⟩ | ⟨hq, -⟩ | ⟨hq, -⟩ | ⟨hq, -⟩ | ⟨-, _, hr⟩ | ⟨-, _, hr⟩ | hr := (st.withPorts inp none).microStep_cases
  rotate_left 4
  · exact ⟨inp, _, .inl (Host.Outcome.next.inj (hm.symm.trans hr))⟩
  · exact ⟨inp, _, .inr (Host.Outcome.next.inj (hm.symm.trans hr))⟩
  · cases hm.symm.trans hr
  all_goals rcases hp with hp | hp <;> cases hp.symm.trans hq

/-- Settles O54: the frames of the two rounds. -/
theorem blockRoundsFrame : Obligations.BlockRoundsFrame := by
  intro st t hp hn h
  obtain ⟨inp, r, rfl | rfl⟩ := step_blockRound hp hn h
  · obtain ⟨hkeyed, hS, hK⟩ := State.encMicro_frame (st.withPorts inp none) r
    obtain ⟨hL, hs, hl, hd⟩ := State.encMicro_schedule_frame (st.withPorts inp none) r
    exact ⟨hS, hkeyed, hL, hK, hs, hl, hd⟩
  · obtain ⟨hkeyed, hS, hK⟩ := State.decMicro_frame (st.withPorts inp none) r
    obtain ⟨hL, hs, hl, hd⟩ := State.decMicro_schedule_frame (st.withPorts inp none) r
    exact ⟨hS, hkeyed, hL, hK, hs, hl, hd⟩

/-! ## R50: a table partly written -/

theorem State.ready_eq_false {st : State} (h : st.phase ≠ .idle) : st.ready = false :=
  Bool.eq_false_iff.mpr (State.not_ready_of_busy h)

/-- R118: a busy core accepts nothing. -/
theorem State.acceptsNext_busy {st : State} (h : st.phase ≠ .idle) : st.acceptsNext = none := by
  simp [State.acceptsNext, State.ready_eq_false h]

/-- Settles O55: a core with a running EXPAND is busy and, by the invariant, unkeyed. -/
theorem partialTableIsUnreachable : Obligations.PartialTableIsUnreachable := by
  intro st hinv hp
  have hk : st.keyed = false := hinv.keyedInPhase.keyed_eq_false hp
  have hb : st.phase ≠ .idle := by rcases hp with hp | hp | hp <;> simp [hp]
  exact ⟨hk, State.acceptsNext_busy hb, State.ready_eq_false hb, State.levelT_unkeyed hk⟩

/-! ## R52: after a reset -/

/-- R134: an idle core without a key refuses ENCRYPT. -/
theorem exec_encrypt_unkeyed {st : State} (hp : st.phase = .idle) (hk : st.keyed = false)
    (ig : BitVec 64) (w1 w0 : Word) : exec (.encrypt ig w1 w0) st = .next (st.refuse .notKeyed) := by
  simp [exec, execEncrypt, State.whenReady_idle hp, State.whenKeyed_unkeyed hk]

/-- R134: an idle core without a key refuses DECRYPT. -/
theorem exec_decrypt_unkeyed {st : State} (hp : st.phase = .idle) (hk : st.keyed = false)
    (ig : BitVec 64) (w1 w0 : Word) : exec (.decrypt ig w1 w0) st = .next (st.refuse .notKeyed) := by
  simp [exec, execDecrypt, State.whenReady_idle hp, State.whenKeyed_unkeyed hk]

/-- Settles O4: a reset leaves an idle core without a key, and EXPAND writes the whole table. -/
theorem resetForgetsTheKey : Obligations.ResetForgetsTheKey :=
  fun st ig w1 w0 key =>
    ⟨exec_encrypt_unkeyed st.resetEvent_phase st.resetEvent_keyed ig w1 w0,
      exec_decrypt_unkeyed st.resetEvent_phase st.resetEvent_keyed ig w1 w0,
      _, exec_expand_idle st.resetEvent_phase key, rfl, rfl⟩

end Sys2Proof.Machine
end

