-- ==== Sys2Proof/Proofs/Encoding.lean ====
section
/-! PROOFS. The statements of 30_encoding.md: the decoder and the encoder (R54 to R59, R63), the opcode map (R57), the ignored
bits (R64), the assembled forms (R67, R68) and the two ports (R53, R60 to R62). -/

namespace Sys2Proof

/-! ## R54: a command word and its two fields -/

theorem cmdWord_cmdOp_cmdData (w : CmdWord) : cmdWord (cmdOp w) (cmdData w) = w := by
  have h : (cmdOp w ++ cmdData w : BitVec (2 + 128)) = w.extractLsb' 0 130 :=
    BitVec.extractLsb'_append_extractLsb'_eq_extractLsb' rfl
  exact h.trans BitVec.extractLsb'_eq_self

theorem decode_cmdWord (op : BitVec 2) (data : BitVec 128) : decode (cmdWord op data) = decodeParts op data := by
  rw [decode, cmdOp_cmdWord, cmdData_cmdWord]

/-! ## R55, R56: an operand written from its own fields -/

theorem dataOfKey_keyOfData (data : BitVec 128) : dataOfKey (keyOfData data) = data := by
  refine BitVec.eq_of_getLsbD_eq fun n hn => ?_
  let byte : Fin 16 := ⟨n / 8, by omega⟩
  have hbit : n % 8 < 8 := Nat.mod_lt n (by decide)
  have hsplit : 8 * byte.val + n % 8 = n := Nat.div_add_mod n 8
  have h := dataOfKey_getLsbD (keyOfData data) byte (n % 8) hbit
  rwa [keyOfData_get, keyByte, BitVec.getLsbD_extractLsb', decide_eq_true hbit, Bool.true_and, hsplit] at h

theorem dataOfBlock_of_fields (data : BitVec 128) :
    dataOfBlock (blockIgnored data) (blockWord1 data) (blockWord0 data) = data := by
  have hhigh : blockIgnored data ++ blockWord1 data = data.extractLsb' 32 96 :=
    BitVec.extractLsb'_append_extractLsb'_eq_extractLsb' rfl
  have hall : data.extractLsb' 32 96 ++ blockWord0 data = data.extractLsb' 0 128 :=
    BitVec.extractLsb'_append_extractLsb'_eq_extractLsb' rfl
  rw [dataOfBlock, hhigh]
  exact hall.trans BitVec.extractLsb'_eq_self

/-! ## R54 to R57, R64: decoding and encoding invert each other -/

/-- Settles O22: `decode_encode`, which holds of every command. -/
theorem decodeInvertsEncode : Obligations.DecodeInvertsEncode := fun i _ => decode_encode i

theorem opcode_cases : ∀ op : BitVec 2, op = 0b00#2 ∨ op = 0b01#2 ∨ op = 0b10#2 ∨ op = 0b11#2 := by decide

theorem encode_decodeParts (op : BitVec 2) (data : BitVec 128) : encode (decodeParts op data) = cmdWord op data := by
  obtain rfl | rfl | rfl | rfl := opcode_cases op
  · rfl
  · exact congrArg (cmdWord _) (dataOfKey_keyOfData data)
  · exact congrArg (cmdWord _) (dataOfBlock_of_fields data)
  · exact congrArg (cmdWord _) (dataOfBlock_of_fields data)

theorem encode_decode (w : CmdWord) : encode (decode w) = w :=
  (encode_decodeParts _ _).trans (cmdWord_cmdOp_cmdData w)

/-- R64: there is no ill-formed command. -/
theorem Instr.wellFormed_eq_true (i : Instr) : i.wellFormed = true := by cases i <;> rfl

/-- Settles O23: by the opcode, then the fields of its operand. -/
theorem encodeInvertsDecode : Obligations.EncodeInvertsDecode := fun w => ⟨encode_decode w, Instr.wellFormed_eq_true _⟩

/-! ## R57: match and mask -/

/-- The mask keeps the opcode and clears the operand. -/
theorem cmdWord_and_opcodeMask (op : BitVec 2) (data : BitVec 128) :
    cmdWord op data &&& opcodeMask = cmdWord op 0#128 := by
  have hmask : opcodeMask = 0b11#2 ++ 0#128 := by decide
  have hop : op &&& 0b11#2 = op := BitVec.and_allOnes
  have h : (op ++ data) &&& (0b11#2 ++ 0#128) = (op &&& 0b11#2) ++ (data &&& 0#128) := BitVec.and_append
  rw [hop, BitVec.and_zero] at h
  rwa [hmask]

theorem matchingRows_cmdWord (op : BitVec 2) (data : BitVec 128) :
    matchingRows (cmdWord op data) = matchingRows (cmdWord op 0#128) := by
  simp only [matchingRows, cmdWord_and_opcodeMask]

theorem matchingRows_encode (i : Instr) : matchingRows (encode i) = [mnemonicOf i] := by
  rw [encode, matchingRows_cmdWord]
  cases i with
  | reserved => exact show matchingRows (cmdWord 0b00#2 0#128) = ["RESERVED"] by decide
  | expand => exact show matchingRows (cmdWord 0b01#2 0#128) = ["EXPAND"] by decide
  | encrypt => exact show matchingRows (cmdWord 0b10#2 0#128) = ["ENCRYPT"] by decide
  | decrypt => exact show matchingRows (cmdWord 0b11#2 0#128) = ["DECRYPT"] by decide

/-- Settles O24: a word is the word of the command it decodes to. -/
theorem oneRowMatchesEachWord : Obligations.OneRowMatchesEachWord := fun w => by
  rw [← matchingRows_encode, encode_decode]

/-! ## R55, R56, R63: the operand fields -/

/-- Settles O25: the decoder on each opcode; the key byte by byte. -/
theorem operandFieldsOfEachFormat : Obligations.OperandFieldsOfEachFormat :=
  fun data => ⟨decode_cmdWord _ data, ⟨keyOfData data, decode_cmdWord _ data, keyOfData_get data⟩,
    decode_cmdWord _ data, decode_cmdWord _ data⟩

end Sys2Proof

namespace Sys2Proof.Machine

/-! ## R58: key bytes and key words as slices of the operand -/

theorem keyByte_toNat (data : BitVec 128) (i : Nat) :
    (keyByte data i).toNat = data.toNat / 2 ^ (8 * i) % 2 ^ 8 := by
  rw [keyByte, BitVec.extractLsb'_toNat, Nat.shiftRight_eq_div_pow]

/-- The bytes of key word `j`, cut out of what is left of the operand above the words below it. -/
theorem keyOfData_get_toNat (data : BitVec 128) (j : Fin 4) (t : Nat) (ht : t < 4) :
    ((keyOfData data)[4 * j.val + t]'(by omega)).toNat = data.toNat / 2 ^ (32 * j.val) / 2 ^ (8 * t) % 2 ^ 8 := by
  have hget : (keyOfData data)[4 * j.val + t]'(by omega) = keyByte data (4 * j.val + t) :=
    keyOfData_get data ⟨4 * j.val + t, by omega⟩
  rw [hget, keyByte_toNat, Nat.div_div_eq_div_mul, ← Nat.pow_add]
  congr 3
  omega

/-- R58: the packed key word, by R39 the number its four key bytes write in base 256. -/
theorem packFn_keyOfData_get (data : BitVec 128) (j : Fin 4) :
    (packFn (keyOfData data))[j] = data.extractLsb' (32 * j.val) 32 := by
  apply BitVec.eq_of_toNat_eq
  have hb := keyOfData_get_toNat data j
  have hb0 : (keyOfData data)[4 * j.val].toNat = data.toNat / 2 ^ (32 * j.val) % 2 ^ 8 :=
    (hb 0 (by decide)).trans (by rw [Nat.mul_zero, Nat.pow_zero, Nat.div_one])
  rw [keyPacksLittleEndian (keyOfData data) j, BitVec.extractLsb'_toNat, Nat.shiftRight_eq_div_pow,
    hb0, hb 1 (by decide), hb 2 (by decide), hb 3 (by decide)]
  omega

/-- Settles O13: the bytes by the decoder, the words by the packing of R39. -/
theorem keyWordsAreOperandSlices : Obligations.KeyWordsAreOperandSlices :=
  fun data => ⟨keyOfData_get data, packFn_keyOfData_get data⟩

/-! ## R67, R68, R95: what a line assembles to -/

/-- R67: sixteen bytes are a key, and key byte `i` is the `i`-th of them. -/
theorem keyOfBytes_of_length {bytes : List Byte} (h : bytes.length = 16) :
    ∃ key : Key, keyOfBytes bytes = some key ∧ ∀ i : Fin 16, some key[i] = bytes[i.val]? := by
  have hw : keyBytesWellFormed bytes = true := beq_iff_eq.mpr h
  have hi (i : Fin 16) : i.val < bytes.length := h.symm ▸ i.isLt
  exact ⟨⟨bytes.toArray, h⟩, dif_pos hw, fun i => (List.getElem?_eq_getElem (hi i)).symm⟩

/-- R95: bytes of any other length are no key. -/
theorem keyOfBytes_eq_none_iff (bytes : List Byte) : keyOfBytes bytes = none ↔ bytes.length ≠ 16 := by
  by_cases h : bytes.length = 16
  · obtain ⟨key, hkey, -⟩ := keyOfBytes_of_length h
    simp [hkey, h]
  · have hw : ¬ keyBytesWellFormed bytes = true := mt beq_iff_eq.mp h
    exact iff_of_true (dif_neg hw) h

theorem assemble_expandBytes_eq_none_iff (bytes : List Byte) :
    assemble (.expandBytes bytes) = none ↔ bytes.length ≠ 16 :=
  Option.map_eq_none_iff.trans (keyOfBytes_eq_none_iff bytes)

/-- R68: a string of sixteen ASCII characters stands for their codes. -/
theorem assemble_expandText {chars : List Char} (hlen : chars.length = 16) (hascii : ∀ c ∈ chars, c.toNat < 128) :
    assemble (.expandText chars) = assemble (.expandBytes (chars.map asciiByte)) := by
  have hw : keyTextWellFormed chars = true := by simpa [keyTextWellFormed, hlen] using hascii
  exact if_pos hw

/-- Settles O27: the block lines and `.op00` as written, the keys by their length. -/
theorem assembledWords : Obligations.AssembledWords := by
  refine ⟨fun _ _ => ⟨rfl, rfl⟩, rfl, fun bytes h => ?_, fun _ => assemble_expandText, assemble_expandBytes_eq_none_iff⟩
  obtain ⟨key, hkey, hget⟩ := keyOfBytes_of_length h
  exact ⟨key, congrArg (Option.map Instr.expand) hkey, hget⟩

/-! ## R64: the ignored bits -/

/-- Settles O33: neither the meanings nor the acceptance take the ignored bits as an argument. -/
theorem ignoredBitsHaveNoEffect : Obligations.IgnoredBitsHaveNoEffect :=
  fun _ _ _ _ _ _ _ => ⟨rfl, rfl, rfl, rfl, rfl, rfl⟩

/-! ## R53, R26: the status outputs -/

theorem State.busy_eq_true_iff (st : State) : st.busy = true ↔ st.phase ≠ .idle := by
  rw [← Bool.not_eq_false, State.busy_eq_false_iff]

/-- Settles O58: each output is a field of the state or decided by the phase. -/
theorem statusOutputs : Obligations.StatusOutputs := fun st =>
  ⟨rfl, st.busy_eq_true_iff, st.ready_iff, by rw [State.outPins, Option.isSome_map, Option.isSome_iff_exists]⟩

/-! ## R60 to R62: the fields of a response word -/

theorem responseWord_status (fill : BitVec 64) (r : Response) :
    (responseWord fill r).extractLsb' 64 2 = statusCode r.status := BitVec.extractLsb'_append_eq_left

/-- R61: the code `11` is never produced. -/
theorem statusCode_ne_three (s : Status) : statusCode s ≠ 0b11#2 := by cases s <;> decide

/-- Bits of `rsp_data` are bits of the response word. -/
theorem responseWord_data {fill : BitVec 64} {r : Response} {start len : Nat} (h : start + len ≤ 64) :
    (responseWord fill r).extractLsb' start len = (responseData fill r).extractLsb' start len :=
  BitVec.extractLsb'_append_eq_of_add_le h

theorem blockBits_word0 (b : Block) : (blockBits b).extractLsb' 0 32 = b.w0 := BitVec.extractLsb'_append_eq_right

theorem blockBits_word1 (b : Block) : (blockBits b).extractLsb' 32 32 = b.w1 := BitVec.extractLsb'_append_eq_left

/-- Settles O59: the two appends that make the response word, cut where they were made. -/
theorem responseWordFields : Obligations.ResponseWordFields := fun fill s w0 w1 =>
  ⟨fun d => responseWord_status fill ⟨s, d⟩, statusCode_ne_three s, rfl, rfl, rfl,
    (responseWord_data (by decide)).trans (blockBits_word0 ⟨w0, w1⟩),
    (responseWord_data (by decide)).trans (blockBits_word1 ⟨w0, w1⟩)⟩

end Sys2Proof.Machine
end

