-- ==== Sys2Proof/Proofs/Datapath.lean ====
section
/-! PROOFS. The statements of 40_datapath.md: the values and the laws of ADD32, SUB32 and XOR32 (R71 to R73, R79, R80, R83),
the two rotations (R74 to R78, R81) and the addition of the key packing (R84). -/

namespace Sys2Proof.Machine

/-! ## R74, R75: where the bits of a rotation come from -/

theorem rotl32_getLsbD (v n : Word) {i : Nat} (hi : i < 32) :
    (rotl32 v n).getLsbD i = v.getLsbD ((i + 32 - n.toNat % 32) % 32) := by
  have hr : n.toNat % 32 < 32 := rotAmount_lt n
  rw [rotl32_eq_rotateLeft, BitVec.getLsbD_rotateLeft_of_le hr]
  by_cases h : i < n.toNat % 32
  · have hfrom : (i + 32 - n.toNat % 32) % 32 = 32 - n.toNat % 32 + i := by omega
    rw [hfrom, decide_eq_true h, cond_true]
  · have hfrom : (i + 32 - n.toNat % 32) % 32 = i - n.toNat % 32 := by omega
    rw [hfrom, decide_eq_false h, cond_false, decide_eq_true hi, Bool.true_and]

theorem rotr32_getLsbD (v n : Word) {i : Nat} (hi : i < 32) :
    (rotr32 v n).getLsbD i = v.getLsbD ((i + n.toNat % 32) % 32) := by
  have hr : n.toNat % 32 < 32 := rotAmount_lt n
  rw [rotr32_eq_rotateRight, BitVec.getLsbD_rotateRight_of_lt hr]
  by_cases h : i < 32 - n.toNat % 32
  · have hfrom : (i + n.toNat % 32) % 32 = n.toNat % 32 + i := by omega
    rw [hfrom, decide_eq_true h, cond_true]
  · have hfrom : (i + n.toNat % 32) % 32 = i - (32 - n.toNat % 32) := by omega
    rw [hfrom, decide_eq_false h, cond_false, decide_eq_true hi, Bool.true_and]

/-- Settles O6: the bits moved by the two shifts of each rotation. -/
theorem rotationsMoveBits : Obligations.RotationsMoveBits :=
  fun v n _ hi => ⟨rotl32_getLsbD v n hi, rotr32_getLsbD v n hi⟩

/-! ## R78, R81: one rotation against the other -/

theorem rotl32_rotr32 (x n : Word) : rotl32 (rotr32 x n) n = x := by
  refine BitVec.eq_of_getLsbD_eq fun i hi => ?_
  have hback : ((i + 32 - n.toNat % 32) % 32 + n.toNat % 32) % 32 = i := by omega
  rw [rotl32_getLsbD _ n hi, rotr32_getLsbD x n (Nat.mod_lt _ (by decide)), hback]

theorem rotr32_rotl32 (x n : Word) : rotr32 (rotl32 x n) n = x := by
  refine BitVec.eq_of_getLsbD_eq fun i hi => ?_
  have hback : ((i + n.toNat % 32) % 32 + 32 - n.toNat % 32) % 32 = i := by omega
  rw [rotr32_getLsbD _ n hi, rotl32_getLsbD x n (Nat.mod_lt _ (by decide)), hback]

/-- Settles O8: a bit moved there is moved back. -/
theorem rotationsInvertEachOther : Obligations.RotationsInvertEachOther :=
  fun x n => ⟨rotl32_rotr32 x n, rotr32_rotl32 x n⟩

/-- R76: an amount given as a number, below `2^32` or not, is used modulo 32. -/
theorem rotAmount_ofNat (r : Nat) : rotAmount (BitVec.ofNat 32 r) = r % 32 := by
  rw [rotAmount_eq, BitVec.toNat_ofNat]
  exact Nat.mod_mod_of_dvd r (by decide)

/-- Settles O9: the two move each bit from the same place. -/
theorem rotrIsRotlOfComplement : Obligations.RotrIsRotlOfComplement := by
  intro v n
  refine BitVec.eq_of_getLsbD_eq fun i hi => ?_
  have hamount : (BitVec.ofNat 32 ((32 - n.toNat % 32) % 32)).toNat % 32 = (32 - n.toNat % 32) % 32 :=
    (rotAmount_ofNat _).trans (Nat.mod_mod _ _)
  have hfrom : (i + n.toNat % 32) % 32 = (i + 32 - (32 - n.toNat % 32) % 32) % 32 := by omega
  rw [rotr32_getLsbD v n hi, rotl32_getLsbD v _ hi, hamount, hfrom]

/-! ## R76, R77: the amount of a rotation -/

theorem rotl32_congr_amount (v : Word) {n m : Word} (h : rotAmount n = rotAmount m) : rotl32 v n = rotl32 v m := by
  rw [rotl32, rotl32, h]

theorem rotr32_congr_amount (v : Word) {n m : Word} (h : rotAmount n = rotAmount m) : rotr32 v n = rotr32 v m := by
  rw [rotr32, rotr32, h]

theorem rotAmount_reduced (n : Word) : rotAmount n = rotAmount (BitVec.ofNat 32 (n.toNat % 32)) := by
  rw [rotAmount_ofNat, Nat.mod_mod, rotAmount_eq]

/-- Settles O7: a rotation sees its second operand through `rotAmount` alone, and amount 0 is its first case. -/
theorem rotationAmountIsModulo32 : Obligations.RotationAmountIsModulo32 :=
  fun v n => ⟨rotl32_congr_amount v (rotAmount_reduced n), rotr32_congr_amount v (rotAmount_reduced n),
    fun h => ⟨if_pos h, if_pos h⟩⟩

/-! ## R84: the addition of the key packing -/

/-- R84: the byte lies in the bits that the shift cleared. -/
theorem shl32_and_zext32 (w : Word) (b : Byte) : shl32 w 8 &&& zext32 b = 0#32 := by
  refine BitVec.eq_of_getLsbD_eq fun i _ => ?_
  rw [shl32, zext32, BitVec.getLsbD_and, BitVec.getLsbD_shiftLeft, BitVec.getLsbD_setWidth, BitVec.getLsbD_zero]
  by_cases h : i < 8
  · simp [h]
  · simp [BitVec.getLsbD_of_ge b i (by omega)]

/-- Settles O11: where no bit is set in both, there is no carry. -/
theorem packingUpdateNeverCarries : Obligations.PackingUpdateNeverCarries :=
  fun w b => BitVec.add_eq_or_of_and_eq_zero _ _ (shl32_and_zext32 w b)

/-! ## R71 to R73, R79, R80, R83: addition, subtraction and exclusive or -/

theorem add32_toNat (x y : Word) : (add32 x y).toNat = (x.toNat + y.toNat) % 2 ^ 32 := BitVec.toNat_add x y

/-- R72: the remainder of the integers, which is never negative. -/
theorem sub32_toNat (x y : Word) : ((sub32 x y).toNat : Int) = ((x.toNat : Int) - (y.toNat : Int)) % 2 ^ 32 := by
  have hy : y.toNat < 2 ^ 32 := y.isLt
  rw [sub32_eq, BitVec.toNat_sub]
  omega

theorem xor32_getLsbD (x y : Word) (i : Nat) : (xor32 x y).getLsbD i = (x.getLsbD i ^^ y.getLsbD i) :=
  BitVec.getLsbD_xor

/-- Settles O5: the three definitions, each as its rule writes it. -/
theorem addSubXorValues : Obligations.AddSubXorValues :=
  fun x y => ⟨add32_toNat x y, sub32_toNat x y, fun i _ => xor32_getLsbD x y i⟩

theorem xor32_xor32_cancel (x y : Word) : xor32 (xor32 x y) y = x := by
  rw [xor32_eq, xor32_eq, BitVec.xor_assoc, BitVec.xor_self, BitVec.xor_zero]

/-- R83: the first reduction of a sum of three words changes nothing. -/
theorem add32_add32_toNat (x y z : Word) :
    (add32 (add32 x y) z).toNat = (x.toNat + y.toNat + z.toNat) % 2 ^ 32 := by
  rw [add32_toNat, add32_toNat, Nat.mod_add_mod]

/-- R83: 32 divides `2^32`. -/
theorem rotAmount_add32 (x y : Word) : rotAmount (add32 x y) = (x.toNat + y.toNat) % 32 := by
  rw [rotAmount_eq, add32_toNat]
  exact Nat.mod_mod_of_dvd _ (by decide)

/-- Settles O10: the laws of arithmetic modulo `2^32`. -/
theorem addSubXorLaws : Obligations.AddSubXorLaws :=
  fun x y z => ⟨BitVec.add_sub_cancel x y, BitVec.sub_add_cancel x y, xor32_xor32_cancel x y, BitVec.add_comm x y,
    BitVec.add_assoc x y z, add32_add32_toNat x y z, (rotAmount_add32 x y).symm⟩

end Sys2Proof.Machine
end

