-- ==== Sys2Proof/Proofs/KeySchedule.lean ====
section
/-! PROOFS. The statements of 41_key_schedule.md: the initial table (R87), one mixing iteration (R89, R93, R96), the
last rewrite of each word by the mixing pass (R90, R94) and the EXPAND command (R91, R97). -/

namespace Sys2Proof.Machine

/-! ## R87: the initial table -/

/-- R87: the closed form of the recurrence, for any number of words. -/
theorem initWord_toNat (i : Nat) :
    (initWord i).toNat = (Config.magicP.toNat + i * Config.magicQ.toNat) % 2 ^ 32 := by
  induction i with
  | zero => rw [initWord_zero, Nat.zero_mul, Nat.add_zero, Nat.mod_eq_of_lt Config.magicP.isLt]
  | succ i ih => rw [initWord_succ, add32_toNat, ih, Nat.mod_add_mod, Nat.succ_mul, Nat.add_assoc]

/-- Settles O14: the words of the table are those of the recurrence, and its closed form is theirs. -/
theorem initTableIsArithmeticProgression : Obligations.InitTableIsArithmeticProgression := by
  refine ⟨initTable_get 0, fun i => ?_, fun i => ?_⟩
  · have hprev : initTable[i.val] = initWord i.val := initTable_get i.castSucc
    rw [hprev]
    exact initTable_get i.succ
  · rw [initTable_get, initWord_toNat]

/-! ## R89: one mixing iteration -/

theorem mixStep_S_get_same (m : Mix) : (mixStep m).S[m.s] = mixA m :=
  Vector.getElem_set_self _

theorem mixStep_L_get_same (m : Mix) : (mixStep m).L[m.l] = mixB m (mixA m) :=
  Vector.getElem_set_self _

theorem mixStep_S_get_other (m : Mix) {i : Fin 26} (h : i ≠ m.s) : (mixStep m).S[i] = m.S[i] :=
  Vector.getElem_set_ne (Fin.is_lt _) (Fin.is_lt _) fun e => h (Fin.ext e.symm)

theorem mixStep_L_get_other (m : Mix) {j : Fin 4} (h : j ≠ m.l) : (mixStep m).L[j] = m.L[j] :=
  Vector.getElem_set_ne (Fin.is_lt _) (Fin.is_lt _) fun e => h (Fin.ext e.symm)

/-- Settles O15: `a` is the model's `mixA` and `b` its `mixB` of that new `A`. -/
theorem mixStepWritesInOrder : Obligations.MixStepWritesInOrder := by
  intro m a b ha hb
  obtain rfl : a = mixA m := ha
  obtain rfl : b = mixB m (mixA m) := hb
  exact ⟨mixStep_A m, mixStep_B m, mixStep_S_get_same m, mixStep_L_get_same m, fun _ => mixStep_S_get_other m,
    fun _ => mixStep_L_get_other m, rfl, rfl⟩

/-! ## R96: the first iteration -/

/-- R96: with `A` and `B` both 0, the first sum is `P`, and no key word is read. -/
theorem mixA_start (L : KeyWords) : mixA (mixStart initTable L) = 0xBF0A8B1D#32 := by
  have hsum : mixA (mixStart initTable L) = rotl32 (add32 (add32 Config.magicP 0#32) 0#32) Config.aRot := by
    have hP : initTable[0] = Config.magicP := initTable_get 0
    rw [← hP]
    rfl
  rw [hsum]
  decide

/-- R96: the amount `0xBF0A8B1D` is 29 modulo 32. -/
theorem mixB_start (S : Table) (L : KeyWords) :
    mixB (mixStart S L) 0xBF0A8B1D#32 = rotl32 (add32 L[0] 0xBF0A8B1D#32) 29#32 := by
  have hsum : mixB (mixStart S L) 0xBF0A8B1D#32 =
    rotl32 (add32 (add32 L[0] 0xBF0A8B1D#32) 0#32) (add32 0xBF0A8B1D#32 0#32) := rfl
  have hamount : rotAmount (add32 0xBF0A8B1D#32 0#32) = rotAmount 29#32 := by decide
  rw [hsum, rotl32_congr_amount _ hamount, add32_eq _ 0#32, BitVec.add_zero]

theorem packFn_zero_key : packFn (Vector.replicate 16 0#8) = zeroKeyWords := by decide

/-- Settles O18: the two words the first iteration writes; the zero key packs to zero words. -/
theorem firstIterationKeyIndependent : Obligations.FirstIterationKeyIndependent := by
  rintro key m rfl
  have hA := mixA_start (packFn key)
  have hL : (mixStep (mixStart initTable (packFn key))).L[0] =
      rotl32 (add32 (packFn key)[0] 0xBF0A8B1D#32) 29#32 := by
    rw [← mixB_start initTable, ← hA]
    exact mixStep_L_get_same _
  refine ⟨(mixStep_S_get_same _).trans hA, hA, hL, ?_⟩
  rintro rfl
  rw [hL, packFn_zero_key]
  decide

/-! ## R90, R94: the last rewrite of each word -/

/-- The word an iteration writes to the table is the `A` it leaves, and stands there for the 25 iterations after it,
none of which has the same index. -/
theorem mixStep_iterate_S_get (S : Table) (L : KeyWords) {k : Nat} {i : Fin 26} (hk : k % 26 = i.val) (n : Nat)
    (hn : n ≤ 25) :
    (mixStep^[k + 1 + n] (mixStart S L)).S[i] = (mixStep^[k + 1] (mixStart S L)).A := by
  induction n with
  | zero =>
    obtain rfl : (mixStep^[k] (mixStart S L)).s = i := Fin.ext ((mixIndicesAreModular S L k).1.trans hk)
    rw [Nat.add_zero, Function.iterate_succ_apply', mixStep_A]
    exact mixStep_S_get_same _
  | succ n ih =>
    obtain ⟨hs, -⟩ := mixIndicesAreModular S L (k + 1 + n)
    have hi : i ≠ (mixStep^[k + 1 + n] (mixStart S L)).s := by
      rw [Ne, Fin.ext_iff, hs]
      omega
    rw [← Nat.add_assoc, Function.iterate_succ_apply', mixStep_S_get_other _ hi]
    exact ih (by omega)

/-- The word an iteration writes to the key words is the `B` it leaves. -/
theorem mixStep_iterate_L_get (S : Table) (L : KeyWords) {k : Nat} {j : Fin 4} (hk : k % 4 = j.val) :
    (mixStep^[k + 1] (mixStart S L)).L[j] = (mixStep^[k + 1] (mixStart S L)).B := by
  obtain rfl : (mixStep^[k] (mixStart S L)).l = j := Fin.ext ((mixIndicesAreModular S L k).2.trans hk)
  rw [Function.iterate_succ_apply', mixStep_B]
  exact mixStep_L_get_same _

/-- Settles O17: iteration `i + 52` is the last one with index `i`; `25 - i` iterations follow it. -/
theorem tableIsLastSweep : Obligations.TableIsLastSweep := by
  intro S L i
  have hlast := mixStep_iterate_S_get S L (k := i.val + 52) (i := i) (by omega) (25 - i.val) (by omega)
  have hcount : i.val + 52 + 1 + (25 - i.val) = 78 := by omega
  rwa [hcount, ← mixFn_eq] at hlast

/-! ## R91, R97: the command -/

/-- R97: `A` is the last table word written, in iteration 77. -/
theorem mixFn_A (S : Table) (L : KeyWords) : (mixFn S L).A = (mixFn S L).S[25] := by
  rw [mixFn_eq]
  exact (mixStep_iterate_S_get S L (k := 77) (i := 25) rfl 0 (by decide)).symm

/-- R97: `B` is the last key word written, in iteration 77, whose index is 1. -/
theorem mixFn_B (S : Table) (L : KeyWords) : (mixFn S L).B = (mixFn S L).L[1] := by
  rw [mixFn_eq]
  exact (mixStep_iterate_L_get S L (k := 77) (j := 1) rfl).symm

/-- R97: `78 mod 26`. -/
theorem mixFn_s (S : Table) (L : KeyWords) : (mixFn S L).s = 0 := by
  rw [mixFn_eq]
  exact Fin.ext (mixIndicesAreModular S L 78).1

/-- R97: `78 mod 4`. -/
theorem mixFn_l (S : Table) (L : KeyWords) : (mixFn S L).l = 2 := by
  rw [mixFn_eq]
  exact Fin.ext (mixIndicesAreModular S L 78).2

/-- Settles O28: `expandKey` with the scratch of R97 written out. -/
theorem expandCompletes : Obligations.ExpandCompletes := by
  intro key st hp
  rw [exec_expand_idle hp, State.expandKey, State.setMix, mixFn_A, mixFn_B, mixFn_s, mixFn_l, hp]
  rfl

end Sys2Proof.Machine
end

