-- ==== Sys2Proof/Proofs/BlockTransform.lean ====
section
/-! PROOFS. The statements of 42_block_transform.md: the statements of the rounds (R101 to R103, R108 to R110), decryption as
the inverse of encryption for every table (R112 to R114), and the commands ENCRYPT (R105) and DECRYPT (R111). -/

namespace Sys2Proof.Machine

/-! ## R101 to R103, R107 to R110: the statements of the block transform -/

/-- Settles O19: each statement is the model's own; the hypotheses name the word written first, which the second reads. -/
theorem roundStatements : Obligations.RoundStatements := by
  intro S r a b x y
  refine ⟨rfl, ?_, ?_, rfl⟩
  · rintro rfl rfl
    rfl
  · rintro rfl rfl
    rfl

/-! ## R113: one round against the other -/

/-- One statement of a round: word `p` is mixed with the other accumulator `q` and the table word `k`, and mixed back. -/
theorem decStatement_encStatement (p q k : Word) :
    xor32 (rotr32 (sub32 (add32 (rotl32 (xor32 p q) q) k) k) q) q = p := by
  rw [sub32_eq, add32_eq, BitVec.add_sub_cancel, rotr32_rotl32, xor32_xor32_cancel]

/-- The same from the decrypt side. -/
theorem encStatement_decStatement (v q k : Word) :
    add32 (rotl32 (xor32 (xor32 (rotr32 (sub32 v k) q) q) q) q) k = v := by
  rw [xor32_xor32_cancel, rotl32_rotr32, sub32_eq, add32_eq, BitVec.sub_add_cancel]

/-- R113: `B` is restored first, from the `A` it was mixed with; then `A`, from the restored `B`. -/
theorem decRound_encRound (S : Table) (r : Round) (ab : Block) : decRound S r (encRound S r ab) = ab := by
  simp only [decRound, encRound, decStatement_encStatement]

theorem encRound_decRound (S : Table) (r : Round) (ab : Block) : encRound S r (decRound S r ab) = ab := by
  simp only [decRound, encRound, encStatement_decStatement]

/-- Settles O20: the two statements of the round, in the opposite order. -/
theorem decRoundUndoesEncRound : Obligations.DecRoundUndoesEncRound := decRound_encRound

/-! ## R112, R114: the rounds in opposite order, and the whole transform -/

theorem decRounds_encRounds (S : Table) (n : Nat) (h : n ≤ 12) (ab : Block) :
    decRounds S n h (encRounds S n h ab) = ab := by
  induction n with
  | zero => rfl
  | succ n ih => rw [encRounds_succ, decRounds_succ, decRound_encRound, ih]

theorem encRounds_decRounds (S : Table) (n : Nat) (h : n ≤ 12) (ab : Block) :
    encRounds S n h (decRounds S n h ab) = ab := by
  induction n generalizing ab with
  | zero => rfl
  | succ n ih => rw [encRounds_succ, decRounds_succ, ih, encRound_decRound]

theorem decUnwhiten_encWhiten (S : Table) (p : Block) : decUnwhiten S (encWhiten S p) = p := by
  simp only [decUnwhiten, encWhiten, add32_eq, sub32_eq, BitVec.add_sub_cancel]

theorem encWhiten_decUnwhiten (S : Table) (ab : Block) : encWhiten S (decUnwhiten S ab) = ab := by
  simp only [decUnwhiten, encWhiten, add32_eq, sub32_eq, BitVec.sub_add_cancel]

/-- R112: whatever the table holds, decryption undoes encryption. -/
theorem decFn_encFn (S : Table) (x : Block) : decFn S (encFn S x) = x := by
  rw [decFn, encFn, decRounds_encRounds, decUnwhiten_encWhiten]

/-- Whitening the plaintext again gives the accumulators as the rounds of the decryption left them. -/
theorem encWhiten_decFn (S : Table) (c : Block) :
    encWhiten S (decFn S c) = decRounds S 12 (Nat.le_refl 12) c := encWhiten_decUnwhiten S _

theorem encFn_decFn (S : Table) (y : Block) : encFn S (decFn S y) = y := by
  rw [encFn, encWhiten_decFn, encRounds_decRounds]

/-- R114: encryption under a fixed table permutes the blocks. -/
theorem encFn_bijective (S : Table) : Function.Bijective (encFn S) :=
  Function.bijective_iff_has_inverse.mpr ⟨decFn S, decFn_encFn S, encFn_decFn S⟩

/-- Settles O21: whitening and the rounds are undone one by one, on either side. -/
theorem blockFunctionsAreInverse : Obligations.BlockFunctionsAreInverse :=
  fun S => ⟨decFn_encFn S, encFn_decFn S, encFn_bijective S⟩

/-! ## R105, R111: the commands -/

/-- R105: what an idle keyed core does with an ENCRYPT. -/
theorem exec_encrypt_keyed {st : State} (hp : st.phase = .idle) (hk : st.keyed = true)
    (ig : BitVec 64) (w1 w0 : Word) : exec (.encrypt ig w1 w0) st = .next (st.encryptBlock ⟨w0, w1⟩) := by
  simp [exec, execEncrypt, State.whenReady_idle hp, State.whenKeyed_keyed hk, blockOf]

/-- R111: what an idle keyed core does with a DECRYPT. -/
theorem exec_decrypt_keyed {st : State} (hp : st.phase = .idle) (hk : st.keyed = true)
    (ig : BitVec 64) (w1 w0 : Word) : exec (.decrypt ig w1 w0) st = .next (st.decryptBlock ⟨w0, w1⟩) := by
  simp [exec, execDecrypt, State.whenReady_idle hp, State.whenKeyed_keyed hk, blockOf]

/-- R111: the accumulators are left as the whitened plaintext, and the answer is DecFn. -/
theorem State.decryptBlock_eq (st : State) (c : Block) :
    st.decryptBlock c =
      ((st.setAB (encWhiten st.S (decFn st.S c))).goto .idle 1#7).respond .ok (some (decFn st.S c)) := by
  rw [encWhiten_decFn]
  rfl

/-- Settles O29: `encryptBlock`, which writes the phase the core is in already; or the refusal. -/
theorem encryptCompletes : Obligations.EncryptCompletes := by
  refine fun ig w1 w0 st hp => ⟨fun hk => ?_, fun hk => exec_encrypt_unkeyed hp hk ig w1 w0⟩
  rw [exec_encrypt_keyed hp hk, hp]
  rfl

/-- Settles O30: `decryptBlock` with its accumulators written from the plaintext; or the refusal. -/
theorem decryptCompletes : Obligations.DecryptCompletes := by
  refine fun ig w1 w0 st hp => ⟨fun hk => ?_, fun hk => exec_decrypt_unkeyed hp hk ig w1 w0⟩
  rw [exec_decrypt_keyed hp hk, State.decryptBlock_eq, hp]
  rfl

/-! ## R112: the round trip through the machine -/

/-- R112: the core is keyed and holds the table `T`. -/
def State.HoldsTable (T : Table) (st : State) : Prop := st.keyed = true ∧ st.S = T

theorem exec_nonExpand_holdsTable {st t : State} {i : Instr} {T : Table} (hx : isExpand i = false)
    (hT : st.HoldsTable T) (h : exec i st = .next t) : t.HoldsTable T := by
  obtain ⟨hk, rfl⟩ := hT
  obtain ⟨hS, hkeyed, -⟩ := nonExpandFrame i st t hx h
  exact ⟨hkeyed.trans hk, hS⟩

/-- A DECRYPT after any commands but EXPAND is answered by the table the core held before them. -/
theorem runSteps_decrypt_last {st : State} {T : Table} (is : List Instr) (ig : BitVec 64) (c : Block)
    (hp : st.phase = .idle) (hT : st.HoldsTable T) (hx : ∀ i ∈ is, isExpand i = false)
    (hi : st.input = (is ++ [Instr.decrypt ig c.w1 c.w0]).map (fun i => .command (encode i))) :
    ∃ t, runSteps (is.length + 1) st = .next t ∧ t.rsp = some ⟨.ok, some (decFn T c)⟩ := by
  rw [List.map_append] at hi
  obtain ⟨u, hu, hup, ⟨huk, rfl⟩, hui⟩ := runSteps_commands (P := State.HoldsTable T) is _
    (fun i hi s _ _ hs he => exec_nonExpand_holdsTable (st := s.dropInput) (hx i hi) hs he) st hp hT hi
  have hstep : step u = .next (u.dropInput.decryptBlock c) :=
    (step_encoded_command hup hui).trans (exec_decrypt_keyed (st := u.dropInput) hup huk ig c.w1 c.w0)
  exact ⟨_, (runSteps_add hu).trans (runSteps_succ_next hstep), rfl⟩

/-- Settles O38: the ENCRYPT is itself one of the commands that keep the table, and DECRYPT answers with DecFn of EncFn. -/
theorem roundTripThroughTheMachine : Obligations.RoundTripThroughTheMachine := by
  refine ⟨decFn_encFn, fun st x ig ig' is hp hk hx => ⟨encFn st.S x, ?_, fun hi => ?_⟩⟩
  · rw [State.levelT_keyed hk]
    rfl
  · have hx' : ∀ i ∈ Instr.encrypt ig x.w1 x.w0 :: is, isExpand i = false := List.forall_mem_cons.mpr ⟨rfl, hx⟩
    have hrun := runSteps_decrypt_last (Instr.encrypt ig x.w1 x.w0 :: is) ig' (encFn st.S x) hp ⟨hk, rfl⟩ hx' hi
    rwa [decFn_encFn] at hrun

end Sys2Proof.Machine
end

