-- ==== Sys2Proof/Proofs/CommandSequencing.lean ====
section
/-! PROOFS. The statements of 43_command_sequencing.md: the commands and programs at Level T (R119, R120, R129, R131), the
micro-steps of each command (R118, R121 to R128), the responses a step gives (R131), and Level M as a refinement of
Level T (R130). -/

namespace Sys2Proof.Machine

/-! ## R120, R129: the commands at Level T -/

/-- R129: what an idle core does with the reserved opcode. -/
theorem exec_reserved_idle {st : State} (h : st.phase = .idle) (ig : BitVec 128) :
    exec (.reserved ig) st = .next (st.refuse .reservedOp) :=
  State.whenReady_idle h fun st => .next (st.refuse .reservedOp)

/-- Settles O32: a refusal, which writes the response alone. -/
theorem reservedCompletes : Obligations.ReservedCompletes := fun ig _ hp => exec_reserved_idle hp ig

/-- Settles O36: the command's own effect, read at Level T; a block command by whether there is a table. -/
theorem execIsLevelTStep : Obligations.ExecIsLevelTStep := by
  intro i st hp
  cases i with
  | reserved ig => exact ⟨_, exec_reserved_idle hp ig, hp, rfl, rfl, rfl, rfl⟩
  | expand key => exact ⟨_, exec_expand_idle hp key, rfl, rfl, rfl, rfl, rfl⟩
  | encrypt ig w1 w0 =>
    cases hk : st.keyed with
    | true =>
      rw [State.levelT_keyed hk]
      exact ⟨_, exec_encrypt_keyed hp hk ig w1 w0, rfl, State.levelT_keyed hk, rfl, rfl, rfl⟩
    | false =>
      rw [State.levelT_unkeyed hk]
      exact ⟨_, exec_encrypt_unkeyed hp hk ig w1 w0, hp, State.levelT_unkeyed hk, rfl, rfl, rfl⟩
  | decrypt ig w1 w0 =>
    cases hk : st.keyed with
    | true =>
      rw [State.levelT_keyed hk]
      exact ⟨_, exec_decrypt_keyed hp hk ig w1 w0, rfl, State.levelT_keyed hk, rfl, rfl, rfl⟩
    | false =>
      rw [State.levelT_unkeyed hk]
      exact ⟨_, exec_decrypt_unkeyed hp hk ig w1 w0, hp, State.levelT_unkeyed hk, rfl, rfl, rfl⟩

/-! ## R119, R131: programs -/

/-- R131: Level T answers every command once. -/
theorem levelTRun_length (t : TState) (is : List Instr) : (levelTRun t is).2.length = is.length := by
  induction is generalizing t with
  | nil => rfl
  | cons i is ih => exact congrArg (· + 1) (ih (levelTStep t i).1)

/-- Settles O37, by induction on the program: the first command is one step, and the rest runs from the state it leaves. -/
theorem programsRunAsLevelT : Obligations.ProgramsRunAsLevelT := by
  intro is
  induction is with
  | nil => exact fun st hp hi => ⟨st, rfl, hp, hi, rfl, (List.append_nil _).symm, rfl⟩
  | cons i is ih =>
    intro st hp hi
    obtain ⟨u, hu, hup, hut, hur, -, hui⟩ := execIsLevelTStep i st.dropInput hp
    have hrest : u.input = is.map (fun i => .command (encode i)) := by
      rw [hui, State.dropInput_input, hi]
      rfl
    obtain ⟨t, ht, htp, hti, htt, htr, -⟩ := ih u hup hrest
    refine ⟨t, ?_, htp, hti, ?_, ?_, levelTRun_length _ _⟩
    · rwa [List.length_cons, runSteps_succ_next ((step_encoded_command hp hi).trans hu)]
    · rw [htt, hut]
      rfl
    · rw [htr, hur, hut, List.append_assoc]
      rfl

/-! ## R118, R131: what a micro-step does to the ports -/

/-- `t` comes from `st` without the host's inputs being touched, and with at most one answer: the response port and the
responses are as before, or exactly the response on the port was appended. -/
def State.AnswersOnce (st t : State) : Prop :=
  t.input = st.input ∧
    ((t.rsp = st.rsp ∧ t.responses = st.responses) ∨ ∃ r, t.rsp = some r ∧ t.responses = st.responses ++ [r])

theorem State.packMicro_answersOnce (st : State) (i : Fin 16) : st.AnswersOnce (st.packMicro i) := by
  by_cases h : i.val = 0
  · rw [State.packMicro_last st h]
    exact ⟨rfl, .inl ⟨rfl, rfl⟩⟩
  · rw [State.packMicro_more st h]
    exact ⟨rfl, .inl ⟨rfl, rfl⟩⟩

theorem State.initMicro_answersOnce (st : State) (i : Fin 26) : st.AnswersOnce (st.initMicro i) := by
  by_cases h : i.val = 25
  · rw [State.initMicro_last st h]
    exact ⟨rfl, .inl ⟨rfl, rfl⟩⟩
  · rw [State.initMicro_more st h]
    exact ⟨rfl, .inl ⟨rfl, rfl⟩⟩

theorem State.mixMicro_answersOnce (st : State) (k : Fin 78) : st.AnswersOnce (st.mixMicro k) := by
  by_cases h : k.val = 77
  · rw [State.mixMicro_last st h]
    exact ⟨rfl, .inr ⟨_, rfl, rfl⟩⟩
  · rw [State.mixMicro_more st h]
    exact ⟨rfl, .inl ⟨rfl, rfl⟩⟩

theorem State.encMicro_answersOnce (st : State) (r : Round) : st.AnswersOnce (st.encMicro r) := by
  by_cases h : r.val = 11
  · rw [State.encMicro_last st h]
    exact ⟨rfl, .inr ⟨_, rfl, rfl⟩⟩
  · rw [State.encMicro_more st h]
    exact ⟨rfl, .inl ⟨rfl, rfl⟩⟩

theorem State.decMicro_answersOnce (st : State) (r : Round) : st.AnswersOnce (st.decMicro r) := by
  by_cases h : r.val = 0
  · rw [State.decMicro_last st h]
    exact ⟨rfl, .inr ⟨_, rfl, rfl⟩⟩
  · rw [State.decMicro_more st h]
    exact ⟨rfl, .inl ⟨rfl, rfl⟩⟩

theorem State.microStep_answersOnce {st t : State} (h : st.microStep = .next t) : st.AnswersOnce t := by
  obtain ⟨-, he⟩ | ⟨-, _, he⟩ | ⟨-, _, he⟩ | ⟨-, _, he⟩ | ⟨-, _, he⟩ | ⟨-, _, he⟩ | he := st.microStep_cases
  rotate_right
  · cases he.symm.trans h
  all_goals obtain rfl := Host.Outcome.next.inj (he.symm.trans h)
  · exact ⟨rfl, .inl ⟨rfl, rfl⟩⟩
  · exact st.packMicro_answersOnce _
  · exact st.initMicro_answersOnce _
  · exact st.mixMicro_answersOnce _
  · exact st.encMicro_answersOnce _
  · exact st.decMicro_answersOnce _

/-- Settles O41: a busy core takes its micro-step in every slot without a reset, and a micro-step leaves the host's inputs
alone. -/
theorem presentedCommandWaits : Obligations.PresentedCommandWaits := by
  refine ⟨fun i _ hb => exec_busy hb i, fun st w rest hb hc hi => ?_, fun _ _ hb hr => State.slot_busy hr hb⟩
  obtain ⟨t, ht⟩ := State.microStep_next (st := st.quietRsp) hc
  obtain ⟨hinput, -⟩ := State.microStep_answersOnce ht
  exact ⟨t, (step_command_busy hb hi).trans ((State.slot_busy rfl hb).trans ht), hinput, ht⟩

/-- Settles O56: every effect of a step answers once or leaves the quiet port quiet. -/
theorem responsesOnlyAppended : Obligations.ResponsesOnlyAppended := by
  intro st t h
  cases stepEffect_of_step h with
  | reset | wait | acceptExpand | acceptEncrypt | acceptDecrypt => exact .inl ⟨rfl, rfl⟩
  | refuse | expand | encrypt | decrypt => exact .inr ⟨_, rfl, rfl⟩
  | pack inp i => exact (State.packMicro_answersOnce _ i).2
  | init inp i => exact (State.initMicro_answersOnce _ i).2
  | mix inp k => exact (State.mixMicro_answersOnce _ k).2
  | encRound inp r => exact (State.encMicro_answersOnce _ r).2
  | decRound inp r => exact (State.decMicro_answersOnce _ r).2

/-! ## R121, R125, R127, R129: the acceptance micro-steps -/

/-- R118: the step in which an idle core accepts a command at Level M. -/
theorem step_presented_command {st : State} {i : Instr} {rest : List HostInput} (hp : st.phase = .idle)
    (hi : st.input = .slot (presentPins (encode i)) :: rest) : step st = .next ((st.withPorts rest none).accept i) := by
  have hword : pinsWord (presentPins (encode i)) = encode i := cmdWord_cmdOp_cmdData _
  have hports : st.dropInput.quietRsp = st.withPorts rest none := by
    simp [State.dropInput, State.quietRsp, State.withPorts, hi]
  rw [step_slot hi, State.slot_accept rfl rfl (show st.dropInput.phase = .idle from hp), hword, decode_encode, hports]

section presented

variable {st : State} {ig : BitVec 64} {w1 w0 : Word} {rest : List HostInput} (hp : st.phase = .idle)

include hp

theorem step_presented_encrypt_keyed (hi : st.input = .slot (presentPins (encode (.encrypt ig w1 w0))) :: rest)
    (hk : st.keyed = true) : step st = .next ((st.withPorts rest none).acceptEncrypt (blockOf w1 w0)) :=
  (step_presented_command hp hi).trans
    (congrArg _ (State.accept_encrypt_keyed (st := st.withPorts rest none) hk ig w1 w0))

theorem step_presented_encrypt_unkeyed (hi : st.input = .slot (presentPins (encode (.encrypt ig w1 w0))) :: rest)
    (hk : st.keyed = false) : step st = .next ((st.withPorts rest none).refuse .notKeyed) :=
  (step_presented_command hp hi).trans
    (congrArg _ (State.accept_encrypt_unkeyed (st := st.withPorts rest none) hk ig w1 w0))

theorem step_presented_decrypt_keyed (hi : st.input = .slot (presentPins (encode (.decrypt ig w1 w0))) :: rest)
    (hk : st.keyed = true) : step st = .next ((st.withPorts rest none).acceptDecrypt (blockOf w1 w0)) :=
  (step_presented_command hp hi).trans
    (congrArg _ (State.accept_decrypt_keyed (st := st.withPorts rest none) hk ig w1 w0))

theorem step_presented_decrypt_unkeyed (hi : st.input = .slot (presentPins (encode (.decrypt ig w1 w0))) :: rest)
    (hk : st.keyed = false) : step st = .next ((st.withPorts rest none).refuse .notKeyed) :=
  (step_presented_command hp hi).trans
    (congrArg _ (State.accept_decrypt_unkeyed (st := st.withPorts rest none) hk ig w1 w0))

end presented

/-- Settles O42: the acceptance of each command, whose fields the statement writes out. -/
theorem acceptanceMicroSteps : Obligations.AcceptanceMicroSteps := by
  intro st i rest hp hi
  cases i with
  | reserved ig => exact step_presented_command hp hi
  | expand key => exact step_presented_command hp hi
  | encrypt ig w1 w0 => exact ⟨step_presented_encrypt_keyed hp hi, step_presented_encrypt_unkeyed hp hi⟩
  | decrypt ig w1 w0 => exact ⟨step_presented_decrypt_keyed hp hi, step_presented_decrypt_unkeyed hp hi⟩

/-! ## R122 to R124, R126, R128: the micro-steps of a running command -/

section running

variable {st : State} (hi : st.input = [])

include hi

/-- With nothing presented, a step of a busy core is a micro-step with the response port quiet. -/
theorem step_running (hb : st.phase ≠ .idle) : step st = st.quietRsp.microStep :=
  (step_nothing hi).trans (State.slot_busy rfl hb)

theorem step_ksPack (hp : st.phase = .ksPack) (i : Fin 16) (hc : st.cnt.toNat = i.val) :
    step st = .next (st.quietRsp.packMicro i) :=
  (step_running hi (by simp [hp])).trans (State.microStep_ksPack (st := st.quietRsp) hp i hc)

theorem step_ksInit (hp : st.phase = .ksInit) (i : Fin 26) (hc : st.cnt.toNat = i.val) :
    step st = .next (st.quietRsp.initMicro i) :=
  (step_running hi (by simp [hp])).trans (State.microStep_ksInit (st := st.quietRsp) hp i hc)

theorem step_ksMix (hp : st.phase = .ksMix) (k : Fin 78) (hc : st.cnt.toNat = k.val) :
    step st = .next (st.quietRsp.mixMicro k) :=
  (step_running hi (by simp [hp])).trans (State.microStep_ksMix (st := st.quietRsp) hp k hc)

theorem step_encRound (hp : st.phase = .encRound) (r : Round) (hc : st.cnt.toNat = r.val + 1) :
    step st = .next (st.quietRsp.encMicro r) :=
  (step_running hi (by simp [hp])).trans (State.microStep_encRound (st := st.quietRsp) hp r hc)

theorem step_decRound (hp : st.phase = .decRound) (r : Round) (hc : st.cnt.toNat = r.val + 1) :
    step st = .next (st.quietRsp.decMicro r) :=
  (step_running hi (by simp [hp])).trans (State.microStep_decRound (st := st.quietRsp) hp r hc)

end running

/-- R122: the `KS_PACK` micro-step as a step, with its fields written out. -/
theorem step_ksPack_fields (st : State) (i : Fin 16) (hp : st.phase = .ksPack) (hc : st.cnt.toNat = i.val)
    (hi : st.input = []) :
    step st = .next { st with
      L := packStep st.K st.L i,
      cnt := if i.val = 0 then 0#7 else BitVec.ofNat 7 (i.val - 1),
      phase := if i.val = 0 then .ksInit else .ksPack,
      rsp := none } := by
  rw [step_ksPack hi hp i hc]
  by_cases h0 : i.val = 0
  · rw [State.packMicro_last _ h0, if_pos h0, if_pos h0]
    rfl
  · rw [State.packMicro_more _ h0, if_neg h0, if_neg h0]
    rfl

/-- R123: what the initialization loop writes, the value picked inside the write. -/
theorem initStep_eq_set (S : Table) (i : Fin 26) :
    initStep S i = S.set i.val
      (if i.val = 0 then Config.magicP else add32 (S[i.val - 1]'(by omega)) Config.magicQ) i.isLt := by
  by_cases h0 : i.val = 0
  · simp [initStep, h0]
  · simp [initStep, h0]

/-- Settles O43: the two micro-steps, each by whether it is the last of its loop. -/
theorem packAndInitMicroSteps : Obligations.PackAndInitMicroSteps := by
  refine ⟨step_ksPack_fields, fun st i hp hc hi => ?_⟩
  refine ⟨st.quietRsp.initMicro i, step_ksInit hi hp i hc, ?_⟩
  by_cases h25 : i.val = 25
  · rw [State.initMicro_last _ h25]
    exact ⟨initStep_eq_set st.S i, fun _ => rfl, fun hn => absurd h25 hn⟩
  · rw [State.initMicro_more _ h25, hp]
    exact ⟨initStep_eq_set st.S i, fun hn => absurd hn h25, fun _ => rfl⟩

/-- Settles O44: the micro-step by whether it is the last of the pass. -/
theorem mixMicroSteps : Obligations.MixMicroSteps := by
  rintro st k m hp hc hi rfl
  rw [step_ksMix hi hp k hc]
  refine ⟨fun h77 => ?_, fun h77 => ?_⟩
  · rw [State.mixMicro_last _ h77]
    rfl
  · rw [State.mixMicro_more _ h77, hp]
    rfl

/-- Settles O45: each round by whether it is the last one of its command. -/
theorem roundMicroSteps : Obligations.RoundMicroSteps := by
  refine fun st r ab hc hi => ⟨fun hp hab => ?_, fun hp hab => ?_⟩
  · subst hab
    rw [step_encRound hi hp r hc]
    refine ⟨fun h11 => ?_, fun h11 => ?_⟩
    · rw [State.encMicro_last _ h11]
      rfl
    · rw [State.encMicro_more _ h11, hp]
      rfl
  · subst hab
    rw [step_decRound hi hp r hc]
    refine ⟨fun h0 => ?_, fun h0 => ?_⟩
    · rw [State.decMicro_last _ h0]
      rfl
    · rw [State.decMicro_more _ h0, hp]
      rfl

/-! ## R130: each loop of micro-steps, run to its end

Every lemma below is about a running command with nothing presented, at any point of its loop. -/

theorem cnt_toNat {n : Nat} (h : n < 128) : (BitVec.ofNat 7 n).toNat = n := by
  rw [BitVec.toNat_ofNat, Nat.mod_eq_of_lt h]

/-- R122: from key byte `n` on, the packing micro-steps are the packing loop. -/
theorem runSteps_ksPack (n : Nat) (hn : n + 1 ≤ 16) : ∀ {st : State}, st.input = [] → st.phase = .ksPack →
    st.cnt.toNat = n → runSteps (n + 1) st =
      .next ((st.quietRsp.setKeyWords (packLoop st.K (n + 1) hn st.L)).goto .ksInit 0#7) := by
  induction n with
  | zero =>
    intro st hi hp hc
    have hs := step_ksPack hi hp ⟨0, hn⟩ hc
    rw [State.packMicro_last _ rfl] at hs
    exact runSteps_succ_next hs
  | succ n ih =>
    intro st hi hp hc
    have hs := step_ksPack hi hp ⟨n + 1, hn⟩ hc
    rw [State.packMicro_more _ (Nat.succ_ne_zero n)] at hs
    rw [runSteps_succ_next hs]
    exact ih (by omega) hi rfl (cnt_toNat (by omega))

/-- R123: with the words before `cnt` written, the rest of the initialization micro-steps complete the initial table
and set the start of the mixing pass. -/
theorem runSteps_ksInit (n : Nat) : ∀ {st : State}, st.input = [] → st.phase = .ksInit → st.cnt.toNat + n = 25 →
    (∀ j : Fin 26, j.val < st.cnt.toNat → st.S[j] = initWord j.val) →
    runSteps (n + 1) st = .next ((st.quietRsp.setMix (mixStart initTable st.L)).goto .ksMix 0#7) := by
  induction n with
  | zero =>
    intro st hi hp hc hS
    have hs := step_ksInit hi hp ⟨st.cnt.toNat, by omega⟩ rfl
    rw [State.initMicro_last _ hc] at hs
    have hT : initStep st.S ⟨st.cnt.toNat, by omega⟩ = initTable :=
      eq_initTable fun j => initStep_prefix st.S hS j (show j.val ≤ st.cnt.toNat by omega)
    rw [runSteps_succ_next hs, State.quietRsp_S, hT]
    rfl
  | succ n ih =>
    intro st hi hp hc hS
    have hs := step_ksInit hi hp ⟨st.cnt.toNat, by omega⟩ rfl
    rw [State.initMicro_more _ (show st.cnt.toNat ≠ 25 by omega)] at hs
    have hcnt : (BitVec.ofNat 7 (st.cnt.toNat + 1)).toNat = st.cnt.toNat + 1 := cnt_toNat (by omega)
    rw [runSteps_succ_next hs]
    refine ih hi rfl ?_ fun j hj => initStep_prefix st.S hS j ?_
    · rw [State.goto_cnt, hcnt]
      omega
    · rw [State.goto_cnt, hcnt] at hj
      exact Nat.le_of_lt_succ hj

/-- R124: the mixing micro-steps iterate MixStep up to iteration 77, which sets `keyed` and answers. -/
theorem runSteps_ksMix (n : Nat) : ∀ {st : State}, st.input = [] → st.phase = .ksMix → st.cnt.toNat + n = 77 →
    runSteps (n + 1) st = .next
      ((((st.quietRsp.setMix (mixStep^[n + 1] st.getMix)).goto .idle 77#7).setKeyed).respond .ok none) := by
  induction n with
  | zero =>
    intro st hi hp hc
    have hs := step_ksMix hi hp 77 hc
    have hcnt : st.cnt = 77#7 := BitVec.eq_of_toNat_eq hc
    rw [State.mixMicro_last _ rfl] at hs
    rw [runSteps_succ_next hs, ← hcnt]
    rfl
  | succ n ih =>
    intro st hi hp hc
    have hs := step_ksMix hi hp ⟨st.cnt.toNat, by omega⟩ rfl
    rw [State.mixMicro_more _ (show st.cnt.toNat ≠ 77 by omega)] at hs
    rw [runSteps_succ_next hs]
    refine ih hi rfl ?_
    show (BitVec.ofNat 7 (st.cnt.toNat + 1)).toNat + n = 77
    rw [cnt_toNat (by omega)]
    omega

/-- R126: with the rounds before `cnt` done on the block `p`, the rest of the micro-steps complete EncFn's rounds. -/
theorem runSteps_encRound (p : Block) (n : Nat) : ∀ {st : State} (k : Nat) (hk : k + n + 1 = 12), st.input = [] →
    st.phase = .encRound → st.cnt.toNat = k + 1 → st.getAB = encRounds st.S k (by omega) p →
    runSteps (n + 1) st = .next
      (((st.quietRsp.setAB (encRounds st.S 12 (Nat.le_refl 12) p)).goto .idle 12#7).respond .ok
        (some (encRounds st.S 12 (Nat.le_refl 12) p))) := by
  induction n with
  | zero =>
    intro st k hk hi hp hc hab
    obtain rfl : k = 11 := by omega
    have hs := step_encRound hi hp 11 hc
    have hcnt : st.cnt = 12#7 := BitVec.eq_of_toNat_eq hc
    have hround : encRound st.S 11 st.getAB = encRounds st.S 12 (Nat.le_refl 12) p := by
      rw [hab]
      rfl
    rw [State.encMicro_last _ rfl] at hs
    rw [runSteps_succ_next hs, ← hround, ← hcnt]
    rfl
  | succ n ih =>
    intro st k hk hi hp hc hab
    have hs := step_encRound hi hp ⟨k, by omega⟩ hc
    rw [State.encMicro_more _ (show k ≠ 11 by omega)] at hs
    rw [runSteps_succ_next hs]
    refine ih (k + 1) (by omega) hi rfl (cnt_toNat (by omega)) ?_
    exact congrArg (encRound st.S ⟨k, by omega⟩) hab

/-- R128: from round `n + 1` on, the micro-steps are DecFn's rounds, and the answer is un-whitened. -/
theorem runSteps_decRound (n : Nat) (hn : n + 1 ≤ 12) : ∀ {st : State}, st.input = [] → st.phase = .decRound →
    st.cnt.toNat = n + 1 → runSteps (n + 1) st = .next
      (((st.quietRsp.setAB (decRounds st.S (n + 1) hn st.getAB)).goto .idle 1#7).respond .ok
        (some (decUnwhiten st.S (decRounds st.S (n + 1) hn st.getAB)))) := by
  induction n with
  | zero =>
    intro st hi hp hc
    have hs := step_decRound hi hp ⟨0, hn⟩ hc
    have hcnt : st.cnt = 1#7 := BitVec.eq_of_toNat_eq hc
    rw [State.decMicro_last _ rfl] at hs
    rw [runSteps_succ_next hs, ← hcnt]
    rfl
  | succ n ih =>
    intro st hi hp hc
    have hs := step_decRound hi hp ⟨n + 1, hn⟩ hc
    rw [State.decMicro_more _ (Nat.succ_ne_zero n)] at hs
    rw [runSteps_succ_next hs]
    exact ih (by omega) hi rfl (cnt_toNat (by omega))

/-! ## R130: Level M refines Level T -/

/-- R121 to R124: an accepted EXPAND, run to its end: 16, 26 and 78 micro-steps. -/
theorem runSteps_acceptExpand {st : State} (hi : st.input = []) (key : Key) :
    runSteps (16 + 26 + 78) (st.acceptExpand key) = .next ((st.expandKey key).respond .ok none) := by
  have hpack := runSteps_ksPack 15 (Nat.le_refl 16) (st := st.acceptExpand key) hi rfl rfl
  have hinit := (runSteps_add hpack).trans (runSteps_ksInit 25 hi rfl rfl fun j hj => absurd hj (Nat.not_lt_zero _))
  have hmix := (runSteps_add hinit).trans (runSteps_ksMix 77 hi rfl rfl)
  rw [hmix, State.expandKey, mixFn_eq]
  rfl

/-- Settles O46: the acceptance, then the three loops. -/
theorem expandMicroStepsRefine : Obligations.ExpandMicroStepsRefine := by
  intro st key hp
  have hs := step_presented_command (st := st.withPorts [_] st.rsp) (i := .expand key) hp rfl
  have hrun := (runSteps_succ_next hs).trans (runSteps_acceptExpand rfl key)
  exact hrun.trans (exec_expand_idle (st := st.withPorts [] st.rsp) hp key).symm

/-- R125, R126: an accepted ENCRYPT, run to its end. -/
theorem runSteps_acceptEncrypt {st : State} (hi : st.input = []) (p : Block) :
    runSteps 12 (st.acceptEncrypt p) = .next (st.encryptBlock p) :=
  runSteps_encRound (encWhiten st.S p) 11 0 rfl hi rfl rfl rfl

/-- R127, R128: an accepted DECRYPT, run to its end. -/
theorem runSteps_acceptDecrypt {st : State} (hi : st.input = []) (c : Block) :
    runSteps 12 (st.acceptDecrypt c) = .next (st.decryptBlock c) :=
  runSteps_decRound 11 (Nat.le_refl 12) hi rfl rfl

section refine

variable {st : State} {ig : BitVec 64} {w1 w0 : Word} (hp : st.phase = .idle)

include hp

theorem runSteps_presented_encrypt (hi : st.input = [.slot (presentPins (encode (.encrypt ig w1 w0)))]) :
    runSteps (microSteps st.keyed (.encrypt ig w1 w0)) st = exec (.encrypt ig w1 w0) (st.withPorts [] st.rsp) := by
  cases hk : st.keyed with
  | true =>
    rw [exec_encrypt_keyed (st := st.withPorts [] st.rsp) hp hk]
    exact (runSteps_succ_next (step_presented_encrypt_keyed hp hi hk)).trans (runSteps_acceptEncrypt rfl _)
  | false =>
    rw [exec_encrypt_unkeyed (st := st.withPorts [] st.rsp) hp hk]
    exact runSteps_succ_next (step_presented_encrypt_unkeyed hp hi hk)

theorem runSteps_presented_decrypt (hi : st.input = [.slot (presentPins (encode (.decrypt ig w1 w0)))]) :
    runSteps (microSteps st.keyed (.decrypt ig w1 w0)) st = exec (.decrypt ig w1 w0) (st.withPorts [] st.rsp) := by
  cases hk : st.keyed with
  | true =>
    rw [exec_decrypt_keyed (st := st.withPorts [] st.rsp) hp hk]
    exact (runSteps_succ_next (step_presented_decrypt_keyed hp hi hk)).trans (runSteps_acceptDecrypt rfl _)
  | false =>
    rw [exec_decrypt_unkeyed (st := st.withPorts [] st.rsp) hp hk]
    exact runSteps_succ_next (step_presented_decrypt_unkeyed hp hi hk)

end refine

/-- Settles O47: the acceptance, which is all of a refusal, then the twelve rounds. -/
theorem blockMicroStepsRefine : Obligations.BlockMicroStepsRefine := by
  intro st i hx hp
  cases i with
  | expand key => cases hx
  | reserved ig =>
    exact (runSteps_succ_next (step_presented_command (st := st.withPorts [_] st.rsp) hp rfl)).trans
      (exec_reserved_idle (st := st.withPorts [] st.rsp) hp ig).symm
  | encrypt ig w1 w0 => exact runSteps_presented_encrypt (st := st.withPorts [_] st.rsp) hp rfl
  | decrypt ig w1 w0 => exact runSteps_presented_decrypt (st := st.withPorts [_] st.rsp) hp rfl

end Sys2Proof.Machine
end

section
/-! PROOFS. The statement of 60_exceptions.md: a refused command has no partial effect (R136). -/

namespace Sys2Proof.Machine

/-- R136: `t` is `st` with the answer `r`, which carries no data, and nothing else changed. -/
def State.OnlyRefused (st : State) (r : Response) (t : State) : Prop :=
  r.data = none ∧ t = { st with rsp := some r, responses := st.responses ++ [r] }

/-- R140: a refusal is its response and nothing else. -/
theorem State.refuse_onlyRefused {st : State} {c : Status} {r : Response} (h : (st.refuse c).rsp = some r) :
    st.OnlyRefused r (st.refuse c) := by
  obtain rfl := Option.some.inj h
  exact ⟨rfl, rfl⟩

/-- R136 at Level T: every effect of a command on an idle core but a refusal is answered OK. -/
theorem exec_onlyRefused {st t : State} {i : Instr} {r : Response} (hp : st.phase = .idle) (hr : r.status ≠ .ok)
    (h : exec i st = .next t) (ht : t.rsp = some r) : st.OnlyRefused r t := by
  obtain ⟨-, _, he⟩ | ⟨_, -, he⟩ | ⟨-, -, _, he⟩ | ⟨-, -, _, he⟩ := exec_idle_cases hp i <;>
    obtain rfl := Host.Outcome.next.inj (he.symm.trans h)
  · exact State.refuse_onlyRefused ht
  all_goals
    obtain rfl := Option.some.inj ht
    exact absurd rfl hr

/-- R136 at Level M: an acceptance micro-step answers only where it refuses; one that starts a command leaves the quiet port
quiet. -/
theorem State.accept_onlyRefused {st : State} {i : Instr} {r : Response} (hq : st.rsp = none)
    (h : (st.accept i).rsp = some r) : st.OnlyRefused r (st.accept i) := by
  obtain he | ⟨-, he⟩ | ⟨_, -, he⟩ | ⟨-, _, he⟩ | ⟨-, _, he⟩ := st.accept_cases i <;> rw [he] at h ⊢
  · exact State.refuse_onlyRefused h
  · exact State.refuse_onlyRefused h
  all_goals cases hq.symm.trans h

/-- Settles O31: at both levels a response other than OK comes from a refusal, which writes the response alone. -/
theorem refusalsArePrecise : Obligations.RefusalsArePrecise :=
  fun _ _ _ hp hr => ⟨fun _ h ht => exec_onlyRefused hp hr h ht, fun h => State.accept_onlyRefused rfl h⟩

end Sys2Proof.Machine
end

section
/-! PROOFS. The statements of 70_reset_and_hazards.md: a reset event at any moment (R148) and the end of every running
command (R161, R162). -/

namespace Sys2Proof.Machine

/-! ## R148: the reset event -/

/-- Settles O3: the slot's reset comes before everything else, and the reset event touches neither the host's other inputs nor
the responses. -/
theorem resetEventAtAnyMoment : Obligations.ResetEventAtAnyMoment := by
  intro st p rest hi hr
  have hs : step st = .next st.dropInput.resetEvent := (step_slot hi).trans (State.slot_reset hr)
  have hrest : st.dropInput.input = rest := by rw [State.dropInput_input, hi, List.tail_cons]
  exact ⟨st.dropInput.resetEvent, hs, rfl, rfl, rfl, hrest, rfl, rfl⟩

/-! ## R130: the micro-steps that remain -/

section remaining

variable {st : State}

theorem State.remaining_idle (hp : st.phase = .idle) : st.remaining = 0 := by
  simp [State.remaining, hp]

theorem State.remaining_ksPack (hp : st.phase = .ksPack) : st.remaining = (st.cnt.toNat + 1) + 26 + 78 := by
  simp [State.remaining, hp]

theorem State.remaining_ksInit (hp : st.phase = .ksInit) : st.remaining = (26 - st.cnt.toNat) + 78 := by
  simp [State.remaining, hp]

theorem State.remaining_ksMix (hp : st.phase = .ksMix) : st.remaining = 78 - st.cnt.toNat := by
  simp [State.remaining, hp]

theorem State.remaining_encRound (hp : st.phase = .encRound) : st.remaining = 13 - st.cnt.toNat := by
  simp [State.remaining, hp]

theorem State.remaining_decRound (hp : st.phase = .decRound) : st.remaining = st.cnt.toNat := by
  simp [State.remaining, hp]

/-- R161: the first micro-step of a packing loop has the most before it. -/
theorem State.remaining_le (hc : st.CntInRange) : st.remaining ≤ 120 := by
  unfold State.CntInRange at hc
  unfold State.remaining
  cases hp : st.phase <;> simp only [hp] at hc ⊢ <;> omega

theorem State.remaining_pos (hb : st.phase ≠ .idle) (hc : st.CntInRange) : 0 < st.remaining := by
  unfold State.CntInRange at hc
  unfold State.remaining
  cases hp : st.phase with
  | idle => exact absurd hp hb
  | ksPack | ksInit | ksMix | encRound | decRound => simp only [hp] at hc ⊢; omega

end remaining

/-! ## R161: a micro-step brings the end one nearer -/

/-- From `st` to `t` the end of the running command comes one micro-step nearer; it is answered, once, exactly when it is
reached. -/
def State.Advances (st t : State) : Prop :=
  t.remaining + 1 = st.remaining ∧
    ((t.phase ≠ .idle ∧ t.responses = st.responses) ∨ (t.phase = .idle ∧ ∃ r, t.responses = st.responses ++ [r]))

section advances

variable {st : State}

theorem State.packMicro_advances (hp : st.phase = .ksPack) {i : Fin 16} (hc : st.cnt.toNat = i.val) :
    st.Advances (st.packMicro i) := by
  unfold State.Advances
  rw [State.remaining_ksPack hp, hc]
  by_cases h : i.val = 0
  · rw [State.packMicro_last st h, State.remaining_ksInit rfl, h]
    exact ⟨rfl, .inl ⟨by simp, rfl⟩⟩
  · rw [State.packMicro_more st h, State.remaining_ksPack rfl, State.goto_cnt, cnt_toNat (by omega)]
    exact ⟨by omega, .inl ⟨by simp, rfl⟩⟩

theorem State.initMicro_advances (hp : st.phase = .ksInit) {i : Fin 26} (hc : st.cnt.toNat = i.val) :
    st.Advances (st.initMicro i) := by
  unfold State.Advances
  rw [State.remaining_ksInit hp, hc]
  by_cases h : i.val = 25
  · rw [State.initMicro_last st h, State.remaining_ksMix rfl, h]
    exact ⟨rfl, .inl ⟨by simp, rfl⟩⟩
  · rw [State.initMicro_more st h, State.remaining_ksInit rfl, State.goto_cnt, cnt_toNat (by omega)]
    exact ⟨by omega, .inl ⟨by simp, rfl⟩⟩

theorem State.mixMicro_advances (hp : st.phase = .ksMix) {k : Fin 78} (hc : st.cnt.toNat = k.val) :
    st.Advances (st.mixMicro k) := by
  unfold State.Advances
  rw [State.remaining_ksMix hp, hc]
  by_cases h : k.val = 77
  · rw [State.mixMicro_last st h, State.remaining_idle rfl, h]
    exact ⟨rfl, .inr ⟨rfl, _, rfl⟩⟩
  · rw [State.mixMicro_more st h, State.remaining_ksMix rfl, State.goto_cnt, cnt_toNat (by omega)]
    exact ⟨by omega, .inl ⟨by simp, rfl⟩⟩

theorem State.encMicro_advances (hp : st.phase = .encRound) {r : Round} (hc : st.cnt.toNat = r.val + 1) :
    st.Advances (st.encMicro r) := by
  unfold State.Advances
  rw [State.remaining_encRound hp, hc]
  by_cases h : r.val = 11
  · rw [State.encMicro_last st h, State.remaining_idle rfl, h]
    exact ⟨rfl, .inr ⟨rfl, _, rfl⟩⟩
  · rw [State.encMicro_more st h, State.remaining_encRound rfl, State.goto_cnt, cnt_toNat (by omega)]
    exact ⟨by omega, .inl ⟨by simp, rfl⟩⟩

theorem State.decMicro_advances (hp : st.phase = .decRound) {r : Round} (hc : st.cnt.toNat = r.val + 1) :
    st.Advances (st.decMicro r) := by
  unfold State.Advances
  rw [State.remaining_decRound hp, hc]
  by_cases h : r.val = 0
  · rw [State.decMicro_last st h, State.remaining_idle rfl, h]
    exact ⟨rfl, .inr ⟨rfl, _, rfl⟩⟩
  · rw [State.decMicro_more st h, State.remaining_decRound rfl, State.goto_cnt, cnt_toNat (by omega)]
    exact ⟨rfl, .inl ⟨by simp, rfl⟩⟩

theorem State.microStep_advances {t : State} (hb : st.phase ≠ .idle) (h : st.microStep = .next t) : st.Advances t := by
  obtain ⟨hp, -⟩ | ⟨hp, _, he⟩ | ⟨hp, _, he⟩ | ⟨hp, _, he⟩ | ⟨hp, hc, he⟩ | ⟨hp, hc, he⟩ | he := st.microStep_cases
  · exact absurd hp hb
  rotate_right
  · cases he.symm.trans h
  all_goals obtain rfl := Host.Outcome.next.inj (he.symm.trans h)
  · exact State.packMicro_advances hp rfl
  · exact State.initMicro_advances hp rfl
  · exact State.mixMicro_advances hp rfl
  · exact State.encMicro_advances hp (Nat.sub_add_cancel hc.1).symm
  · exact State.decMicro_advances hp (Nat.sub_add_cancel hc.1).symm

end advances

/-! ## R161, R162: the run of a command with the host doing nothing -/

/-- A command runs, and the host does nothing. -/
structure State.RunsAlone (st : State) : Prop where
  busy : st.phase ≠ .idle
  cntInRange : st.CntInRange
  noInput : st.input = []

theorem State.RunsAlone.step {st : State} (h : st.RunsAlone) :
    ∃ t, Machine.step st = .next t ∧ st.Advances t ∧ t.CntInRange ∧ t.input = [] := by
  obtain ⟨t, ht⟩ := step_next h.cntInRange
  have hm : st.quietRsp.microStep = .next t := (step_running h.noInput h.busy).symm.trans ht
  obtain ⟨hinput, -⟩ := State.microStep_answersOnce hm
  exact ⟨t, ht, State.microStep_advances (st := st.quietRsp) h.busy hm, step_cntInRange ht, hinput.trans h.noInput⟩

/-- Before the end of its count the command still runs and has not been answered. -/
theorem State.RunsAlone.runSteps_lt (n : Nat) : ∀ {st : State}, st.RunsAlone → n < st.remaining →
    ∃ t, runSteps n st = .next t ∧ t.RunsAlone ∧ t.remaining + n = st.remaining ∧ t.responses = st.responses := by
  induction n with
  | zero => exact fun {st} h _ => ⟨st, rfl, h, rfl, rfl⟩
  | succ n ih =>
    intro st h hn
    obtain ⟨u, hu, ⟨hrem, ⟨hb, hresp⟩ | ⟨hidle, -⟩⟩, hc, hi⟩ := h.step
    · obtain ⟨t, ht, hrun, htrem, htresp⟩ := ih ⟨hb, hc, hi⟩ (by omega)
      exact ⟨t, (runSteps_succ_next hu).trans ht, hrun, by omega, htresp.trans hresp⟩
    · rw [State.remaining_idle hidle] at hrem
      omega

/-- The last micro-step of the count ends the command with its one response. -/
theorem State.RunsAlone.runSteps_remaining {st : State} (h : st.RunsAlone) :
    ∃ t r, runSteps st.remaining st = .next t ∧ t.phase = .idle ∧ t.responses = st.responses ++ [r] := by
  have hpos := State.remaining_pos h.busy h.cntInRange
  obtain ⟨u, hu, hrun, hrem, hresp⟩ := h.runSteps_lt (st.remaining - 1) (by omega)
  obtain ⟨t, ht, ⟨htrem, ⟨hb, -⟩ | ⟨hidle, r, hr⟩⟩, hc, -⟩ := hrun.step
  · have htpos := State.remaining_pos hb hc
    omega
  · have hlast : runSteps (st.remaining - 1 + 1) st = .next t := (runSteps_add hu).trans (runSteps_succ_next ht)
    exact ⟨t, r, by rwa [Nat.sub_add_cancel hpos] at hlast, hidle, by rw [hr, hresp]⟩

/-- Settles O48: every micro-step takes one from the count, and the one that ends it answers. -/
theorem runningCommandEnds : Obligations.RunningCommandEnds := by
  intro st hb hc hi
  have h : st.RunsAlone := ⟨hb, hc, hi⟩
  refine ⟨State.remaining_le hc, h.runSteps_remaining, fun n hn => ?_⟩
  obtain ⟨t, ht, hrun, -, hresp⟩ := h.runSteps_lt n hn
  exact ⟨t, ht, hrun.busy, hresp⟩

end Sys2Proof.Machine
end

section
/-! PROOFS. The opcode table's numbers as command words (30_encoding.md R54, R57; log entry 12) and the step that executes a
presented command (43_command_sequencing.md section 1; log entry 3). -/

namespace Sys2Proof

/-! ## R54: the numbers that are command words -/

theorem decodeNat_of_lt {w : Nat} (h : w < 2 ^ 130) : decodeNat w = .ok (decode (BitVec.ofNat 130 w)) := if_pos h

theorem decodeNat_of_le {w : Nat} (h : 2 ^ 130 ≤ w) : decodeNat w = .error .notACommandWord := if_neg h.not_gt

theorem decodeNat_eq_error_iff (w : Nat) : decodeNat w = .error .notACommandWord ↔ 2 ^ 130 ≤ w := by
  refine ⟨fun h => Nat.le_of_not_lt fun hlt => ?_, decodeNat_of_le⟩
  rw [decodeNat_of_lt hlt] at h
  cases h

/-- The table's reading of a number, in terms of `decode`: what withFetchWord presents is what decodeTableWord decodes. -/
theorem decodeTableWord_eq_some_iff {nbits w : Nat} {i : Instr} :
    decodeTableWord nbits w = some i ↔ w % 2 ^ nbits < 2 ^ 130 ∧ decode (BitVec.ofNat 130 (w % 2 ^ nbits)) = i := by
  unfold decodeTableWord
  by_cases h : w % 2 ^ nbits < 2 ^ 130
  · rw [decodeNat_of_lt h]
    exact Option.some_inj.trans (and_iff_right h).symm
  · rw [decodeNat_of_le (Nat.le_of_not_lt h)]
    exact iff_of_false nofun (h ·.1)

/-- A row wide enough for a command word reads a command's word, as a number, as that command. -/
theorem decodeTableWord_of_encode {nbits w : Nat} {i : Instr} (hn : 130 ≤ nbits) (hw : (encode i).toNat = w) :
    decodeTableWord nbits w = some i := by
  have hlt : w < 2 ^ 130 := hw ▸ (encode i).isLt
  have hmod : w % 2 ^ nbits = w := Nat.mod_eq_of_lt (hlt.trans_le (Nat.pow_le_pow_right (by decide) hn))
  rw [decodeTableWord_eq_some_iff, hmod, ← hw, BitVec.ofNat_toNat, BitVec.setWidth_eq]
  exact ⟨(encode i).isLt, decode_encode i⟩

/-- Settles O26: each of V13's words is the word of its command, and the width of a number alone decides its refusal. -/
theorem writtenWordsDecode : Obligations.WrittenWordsDecode :=
  have row : 130 ≤ 136 := by decide
  ⟨decodeTableWord_of_encode row (by decide), decodeTableWord_of_encode row (by decide),
    decodeTableWord_of_encode row (by decide), decodeTableWord_of_encode row (by decide), decodeNat_eq_error_iff⟩

end Sys2Proof

namespace Sys2Proof.Machine

/-! ## The Level T step -/

theorem State.dropInput_of_input_eq_cons {st : State} {x : HostInput} {rest : List HostInput}
    (hi : st.input = x :: rest) : st.dropInput = { st with input := rest } := by
  rw [State.dropInput, hi, List.tail_cons]

/-- A presented command, once taken, leaves the state it was presented in, now idle. -/
theorem State.dropInput_present (st : State) (w : CmdWord) : (st.present w).dropInput = { st with phase := .idle } := rfl

theorem step_present (st : State) (w : CmdWord) :
    step (st.present w) = exec (decode w) { st with phase := .idle } := by
  rw [step_command_ready (st.present_phase w) (st.present_input w), State.dropInput_present]

/-- Settles O40: the step of a ready core, first on any such state, then on the one withFetchWord gives. -/
theorem stepRunsDecodedCommand : Obligations.StepRunsDecodedCommand := by
  refine ⟨fun st w rest hp hi => ?_, fun st nbits w i hd => ?_⟩
  · rw [step_command_ready hp hi, State.dropInput_of_input_eq_cons hi]
  · obtain ⟨-, rfl⟩ := decodeTableWord_eq_some_iff.mp hd
    exact step_present st _

end Sys2Proof.Machine
end
